-- ==== Sys2Proof/Word.lean ====
section
/-! DEFINITION. The 32-bit register value of the controller (00_scope.md R12). All register values are unsigned
(00_scope.md R13). -/

namespace Sys2Proof

/-- A 32-bit register value: SSR, CSR, COR, the decrementer and the data of a write (00_scope.md R12). -/
abbrev Word := BitVec 32

end Sys2Proof
end

