-- ==== Sys2Proof/Syntax.lean ====
section
/-! DEFINITION. The operations of the register block (30_encoding.md R70, R74), the bus transactions and the
environment's events that drive it (30_encoding.md R76), and the names of the fatal decode errors
(60_exceptions.md R200). -/

namespace Sys2Proof

/-- The access widths every register takes: 1, 2 or 4 bytes (20_memory.md R53). -/
inductive Width where
  | byte
  | half
  | word
deriving DecidableEq, Repr, Inhabited

/-- The direction of a bus transaction (30_encoding.md R70). -/
inductive Dir where
  | read
  | write
deriving DecidableEq, Repr, Inhabited

/-- The register slots of a channel group (20_memory.md R51). -/
inductive Slot where
  | csr
  | cnt
  | cor
deriving DecidableEq, Repr

/-- The eight bus operations, one constructor per row of spec/opcode_table.json (30_encoding.md R74). `ch` is the
channel index, `w` the access width and `v` the data word, of which a write uses the low `8*w` bits
(30_encoding.md R71). -/
inductive Instr where
  | ssrRd (w : Width)
  | ssrWr (w : Width) (v : Word)
  | csrRd (ch : Nat) (w : Width)
  | csrWr (ch : Nat) (w : Width) (v : Word)
  | cntRd (ch : Nat) (w : Width)
  | cntWr (ch : Nat) (w : Width) (v : Word)
  | corRd (ch : Nat) (w : Width)
  | corWr (ch : Nat) (w : Width) (v : Word)
deriving DecidableEq, Repr

/-- A bus transaction `(dir, width, offset, data)` as the bus master issues it (30_encoding.md R70). Width and offset
are any numbers, because an access of an illegal width or at an offset no descriptor can write is a fatal decode
error, not an impossibility (30_encoding.md R71, 42_controller.md R173). The data of a read is ignored. -/
structure Access where
  dir : Dir
  width : Nat
  offset : Nat
  data : Word
deriving DecidableEq, Repr, Inhabited

/-- What the environment can ask of the controller in one step: a bus access, a base-clock tick or a reset
(00_scope.md R14, 30_encoding.md R76). -/
inductive Request where
  | access (a : Access)
  | tick
  | reset
deriving DecidableEq, Repr, Inhabited

/-- The fatal decode errors that an access can raise, codes 1 to 4 of 60_exceptions.md R200; the decoder rejects by
these names (42_controller.md R173). -/
inductive AccessFault where
  /-- The access width is not 1, 2 or 4. -/
  | badWidth
  /-- The offset is 0x01 to 0x0F. -/
  | badSharedOffset
  /-- The offset is at least 0x10 and its channel index is not below N. -/
  | channelOutOfRange
  /-- A channel offset whose low nibble is not 0x0, 0x4 or 0x8. -/
  | badRegisterOffset
deriving DecidableEq, Repr

end Sys2Proof
end

