-- ==== Sys2Proof/Config.lean ====
section
/-! DEFINITION. The construction parameters of the controller (00_scope.md section 4) and the free values: what the
spec leaves to the platform or to the environment. A free value has no body, so no proof can see what it is. -/

namespace Sys2Proof

/-- The parameter CSR_LAYOUT: the lowest bit of each field of CSR (10_state.md R26). CMF and OVF are one bit wide,
CMR and CKS two (00_scope.md R16). -/
structure CsrLayout where
  cmf : Nat
  ovf : Nat
  cmr : Nat
  cks : Nat
deriving DecidableEq, Repr

/-- The parameter RESET_REMAINING: the decrementer at reset is 0 or the limit 0xFFFFFFFF (00_scope.md section 4,
10_state.md R39). -/
inductive ResetRemaining where
  | zero
  | limit
deriving DecidableEq, Repr, Inhabited

/-- The construction parameters of one controller, fixed for its lifetime (00_scope.md R10, 42_controller.md R180). -/
structure Config where
  /-- N, the number of channels (00_scope.md R10). -/
  channelCount : Nat
  /-- BASE_HZ, the base input clock in Hz (00_scope.md R10); no step reads it. -/
  baseHz : Nat
  /-- CSR_LAYOUT (10_state.md R26). -/
  layout : CsrLayout
  /-- RESET_REMAINING (10_state.md R39). -/
  resetRemaining : ResetRemaining
deriving DecidableEq, Repr

/-- FREE VALUE (log entry 2). One less than the platform's BASE_HZ, of which the spec says only that it is an integer
above 0 (00_scope.md section 4). -/
opaque Config.freeBaseHzPred : Nat

/-- FREE VALUE (log entry 3). The platform's RESET_REMAINING, which the spec leaves OPEN between its two values
(00_scope.md section 4, 92_eei_decisions.md D11). -/
opaque Config.freeResetRemaining : ResetRemaining

/-- FREE VALUE (log entry 5). The source of `draw_phase(i, d)`: the number drawn for channel `i` at the draw numbered
`seq`, before it is brought into [0, d) (00_scope.md section 4, 40_countdown_clock.md R110 and R111). -/
opaque Config.freePhase : (seq i : Nat) → Nat

/-- FREE VALUE (log entry 6). The request the environment makes when none has been placed, the `seq`-th such one:
which accesses, ticks and resets come, and in which order, is the environment's choice (20_memory.md R63). -/
opaque Config.freeRequest : (seq : Nat) → Request

end Sys2Proof
end

