-- ==== Sys2Proof/Machine/Params.lean ====
section
/-! DEFINITION. The parameter values the spec gives as defaults and the reset values of the registers, in one place. -/

namespace Sys2Proof.Machine

/-- N defaults to 5 (00_scope.md R10). -/
def defaultChannelCount : Nat := 5

/-- The default CSR_LAYOUT: CMF bit 15, OVF bit 14, CMR bits 5:4, CKS bits 1:0 (10_state.md R26). PRESUMED by the
spec itself, from the family (92_eei_decisions.md D4): log entry 4. -/
def defaultLayout : CsrLayout := { cmf := 15, ovf := 14, cmr := 4, cks := 0 }

/-- The platform's controller: the spec's defaults, and free values where the spec gives none (log entries 1 to 4). -/
def platformConfig : Config :=
  { channelCount := defaultChannelCount
    baseHz := Config.freeBaseHzPred + 1
    layout := defaultLayout
    resetRemaining := Config.freeResetRemaining }

/-- SSR at reset: every channel disabled (10_state.md R39). -/
def resetSsr : Word := 0x00000000#32

/-- CSR at reset (10_state.md R39). -/
def resetCsr : Word := 0x00000000#32

/-- COR, and with it the clock's limit, at reset (10_state.md R39). -/
def resetCor : Word := 0xFFFFFFFF#32

/-- The prescaler at reset (10_state.md R39). -/
def resetPsc : Nat := 0

/-- The decrementer at reset, 0 or 0xFFFFFFFF by the parameter RESET_REMAINING (10_state.md R39). -/
def remainingAtReset (r : ResetRemaining) : Word :=
  match r with
  | .zero => 0x00000000#32
  | .limit => 0xFFFFFFFF#32

end Sys2Proof.Machine
end

