-- ==== Sys2Proof/WellFormed.lean ====
section
/-! DEFINITION. Which configurations, operations and bus accesses the spec admits. -/

namespace Sys2Proof

/-- The six bits of the CSR fields, CMF, OVF, CMR and CKS in turn (10_state.md R26). -/
def CsrLayout.bits (l : CsrLayout) : List Nat :=
  [l.cmf, l.ovf, l.cmr, l.cmr + 1, l.cks, l.cks + 1]

/-- A layout is admissible when its fields lie inside the 32-bit register (00_scope.md R12) and share no bit
(10_state.md R25: four fields). -/
abbrev CsrLayout.wf (l : CsrLayout) : Prop :=
  (∀ b ∈ l.bits, b < 32) ∧ l.bits.Nodup

/-- The domain of the construction parameters: 1 ≤ N ≤ 32 (00_scope.md R11), BASE_HZ above 0 (00_scope.md
section 4), an admissible layout. -/
abbrev Config.wf (c : Config) : Prop :=
  (1 ≤ c.channelCount ∧ c.channelCount ≤ 32) ∧ 0 < c.baseHz ∧ c.layout.wf

/-- An operation of a controller with `n` channels: a channel operation names a channel below `n`
(42_controller.md R174). -/
abbrev Instr.wf (n : Nat) (i : Instr) : Prop :=
  match i with
  | .ssrRd _ => True
  | .ssrWr _ _ => True
  | .csrRd ch _ => ch < n
  | .csrWr ch _ _ => ch < n
  | .cntRd ch _ => ch < n
  | .cntWr ch _ _ => ch < n
  | .corRd ch _ => ch < n
  | .corWr ch _ _ => ch < n

/-- An access on the register map of a controller with `n` channels (20_memory.md R51, R53): a width of 1, 2 or 4, at
offset 0 or at 0x0, 0x4 or 0x8 of the group of a channel below `n`. Said by the map, not by the decoder. -/
def Access.OnMap (n : Nat) (a : Access) : Prop :=
  (a.width = 1 ∨ a.width = 2 ∨ a.width = 4) ∧
  (a.offset = 0 ∨ ∃ i, i < n ∧
    (a.offset = 0x10 * (i + 1) ∨ a.offset = 0x10 * (i + 1) + 0x4 ∨ a.offset = 0x10 * (i + 1) + 0x8))

end Sys2Proof
end

