-- ==== Sys2Proof/Decode.lean ====
section
/-! DEFINITION. Decoding a bus access into an operation (42_controller.md R173), the 16-bit access descriptor
(30_encoding.md R71), and the encoder written from the same table. -/

namespace Sys2Proof

/-- The number of bytes of a width (20_memory.md R53). -/
def Width.bytes (w : Width) : Nat :=
  match w with
  | .byte => 1
  | .half => 2
  | .word => 4

/-- The width of a number of bytes, none where no register takes it (20_memory.md R53). -/
def Width.ofBytes (n : Nat) : Option Width :=
  if n = 1 then some .byte else if n = 2 then some .half else if n = 4 then some .word else none

/-- A register's offset within its channel group (20_memory.md R51). -/
def Slot.offset (s : Slot) : Nat :=
  match s with
  | .csr => 0x0
  | .cnt => 0x4
  | .cor => 0x8

/-- The register at an offset within a channel group, none where there is none (42_controller.md R173). -/
def Slot.ofOffset (l : Nat) : Option Slot :=
  if l = 0x0 then some .csr else if l = 0x4 then some .cnt else if l = 0x8 then some .cor else none

/-- The block-relative offset of a register of channel `ch` (20_memory.md R51). -/
def channelOffset (ch : Nat) (s : Slot) : Nat := 0x10 * (ch + 1) + s.offset

/-- The operation on the shared start/stop register (30_encoding.md R74). -/
def sharedOp (dir : Dir) (w : Width) (v : Word) : Instr :=
  match dir with
  | .read => .ssrRd w
  | .write => .ssrWr w v

/-- The operation on a channel register (30_encoding.md R74). -/
def channelOp (dir : Dir) (ch : Nat) (s : Slot) (w : Width) (v : Word) : Instr :=
  match dir, s with
  | .read, .csr => .csrRd ch w
  | .write, .csr => .csrWr ch w v
  | .read, .cnt => .cntRd ch w
  | .write, .cnt => .cntWr ch w v
  | .read, .cor => .corRd ch w
  | .write, .cor => .corWr ch w v

/-- Decode of a bus access by a controller with `n` channels: width first, then the shared group, then the channel
index, then the register slot; the first failing test names the fault (42_controller.md R173). -/
def decode (n : Nat) (a : Access) : Except AccessFault Instr :=
  match Width.ofBytes a.width with
  | none => .error .badWidth
  | some w =>
    if a.offset = 0 then .ok (sharedOp a.dir w a.data)
    else if a.offset < 0x10 then .error .badSharedOffset
    else if n ≤ a.offset / 0x10 - 1 then .error .channelOutOfRange
    else
      match Slot.ofOffset (a.offset % 0x10) with
      | none => .error .badRegisterOffset
      | some s => .ok (channelOp a.dir (a.offset / 0x10 - 1) s w a.data)

/-- Field D of a descriptor: bit 15, 0 for a read and 1 for a write (30_encoding.md R71). -/
def descriptorDir (d : BitVec 16) : Dir :=
  if d.getLsbD 15 then .write else .read

/-- The width a size code stands for, `1 << S` (30_encoding.md R71, R72); code 3 gives the illegal width 8. -/
def descriptorWidth (d : BitVec 16) : Nat := 2 ^ (d.extractLsb' 13 2).toNat

/-- Fields G and L of a descriptor together: the offset, bits 12:0 (30_encoding.md R71). -/
def descriptorOffset (d : BitVec 16) : Nat := (d.extractLsb' 0 13).toNat

/-- The access that a descriptor and the data word beside it stand for (30_encoding.md R71). -/
def Access.ofDescriptor (d : BitVec 16) (data : Word) : Access :=
  { dir := descriptorDir d, width := descriptorWidth d, offset := descriptorOffset d, data := data }

/-- The size code of a width (30_encoding.md R71). -/
def Width.sizeCode (w : Width) : BitVec 2 :=
  match w with
  | .byte => 0b00#2
  | .half => 0b01#2
  | .word => 0b10#2

/-- Field D of a direction (30_encoding.md R71). -/
def Dir.bit (d : Dir) : BitVec 1 :=
  match d with
  | .read => 0#1
  | .write => 1#1

/-- The descriptor of an access: D, S, G and L side by side (30_encoding.md R71). -/
def descriptorOf (dir : Dir) (w : Width) (offset : Nat) : BitVec 16 :=
  dir.bit ++ (w.sizeCode ++ BitVec.ofNat 13 offset)

/-- The direction of an operation (30_encoding.md R74). -/
def Instr.dir (i : Instr) : Dir :=
  match i with
  | .ssrRd _ => .read
  | .ssrWr _ _ => .write
  | .csrRd _ _ => .read
  | .csrWr _ _ _ => .write
  | .cntRd _ _ => .read
  | .cntWr _ _ _ => .write
  | .corRd _ _ => .read
  | .corWr _ _ _ => .write

/-- The width of an operation. -/
def Instr.width (i : Instr) : Width :=
  match i with
  | .ssrRd w => w
  | .ssrWr w _ => w
  | .csrRd _ w => w
  | .csrWr _ w _ => w
  | .cntRd _ w => w
  | .cntWr _ w _ => w
  | .corRd _ w => w
  | .corWr _ w _ => w

/-- The offset of the register an operation acts on (20_memory.md R51). -/
def Instr.offset (i : Instr) : Nat :=
  match i with
  | .ssrRd _ => 0x0
  | .ssrWr _ _ => 0x0
  | .csrRd ch _ => channelOffset ch .csr
  | .csrWr ch _ _ => channelOffset ch .csr
  | .cntRd ch _ => channelOffset ch .cnt
  | .cntWr ch _ _ => channelOffset ch .cnt
  | .corRd ch _ => channelOffset ch .cor
  | .corWr ch _ _ => channelOffset ch .cor

/-- The data word of an operation: a read carries none, written as 0 (30_encoding.md R70). -/
def Instr.data (i : Instr) : Word :=
  match i with
  | .ssrRd _ => 0
  | .ssrWr _ v => v
  | .csrRd _ _ => 0
  | .csrWr _ _ v => v
  | .cntRd _ _ => 0
  | .cntWr _ _ v => v
  | .corRd _ _ => 0
  | .corWr _ _ v => v

/-- The access that performs an operation. -/
def Instr.access (i : Instr) : Access :=
  { dir := i.dir, width := i.width.bytes, offset := i.offset, data := i.data }

/-- The words of an operation: its descriptor and the data word beside it (30_encoding.md R71, R80). -/
def encode (i : Instr) : BitVec 16 × Word :=
  (descriptorOf i.dir i.width i.offset, i.data)

/-- The access in a row of bits as spec/opcode_table.json numbers them: the descriptor in bits 15:0, the data word,
which the table gives no bits, above it in bits 47:16 (log entry 9). -/
def Access.ofTableBits (nbits w : Nat) : Access :=
  Access.ofDescriptor (BitVec.ofNat 16 (w % 2 ^ nbits)) (BitVec.ofNat 32 (w % 2 ^ nbits / 2 ^ 16))

/-- The operation the decoder of the default controller (N = 5) reads from a row of bits, none where it rejects. -/
def decodeTableWord (nbits w : Nat) : Option Instr :=
  (decode Machine.defaultChannelCount (Access.ofTableBits nbits w)).toOption

end Sys2Proof
end

