-- ==== Sys2Proof/Machine/State.lean ====
section
/-! DEFINITION. The state of the controller (10_state.md R22), the outcomes a step can stop with, and the machine after
reset (10_state.md R39). -/

namespace Sys2Proof.Machine

/-- The four fields of CSR, read out of the register (10_state.md R25). -/
structure CsrFields where
  cmf : Bool
  ovf : Bool
  cmr : BitVec 2
  cks : BitVec 2
deriving DecidableEq, Repr

/-- One timer channel (10_state.md R22). CNT is no field: its read value is computed (R34). `limit` is `cor` (R32). -/
structure Channel where
  /-- The status/control register CSR (R25, R26). -/
  csr : Word
  /-- The compare/reload register COR, which is also the clock's limit (R32). -/
  cor : Word
  /-- The decrementer, in [0, COR] (R33). -/
  remaining : Word
  /-- The prescaler: base ticks counted since the last decrement or re-anchor, in [0, div(CKS)) (R35). -/
  psc : Nat
deriving DecidableEq, Repr

/-- The record of a fatal fault (10_state.md R22, 60_exceptions.md R200): the kind with the direction, offset and width
of the access, or the channel for the kind no step raises. -/
inductive FaultRecord where
  | access (kind : AccessFault) (dir : Dir) (offset width : Nat)
  /-- A clock-select encoding outside 0..3: kept for completeness, and raised by no step, because CKS has two bits
  (60_exceptions.md R203, log entry 14). -/
  | reservedClockSelect (channel : Nat)
deriving DecidableEq, Repr

/-- Why a step has no meaning (60_exceptions.md R205). -/
inductive RefusalReason where
  /-- The prescaled tick of an enabled channel whose COR is 0 (40_countdown_clock.md R109). -/
  | zeroLimitRunning
deriving DecidableEq, Repr

/-- The spec's state of the controller, exactly the table of 10_state.md R22. -/
structure Controller where
  /-- The shared start/stop register SSR; bit i is `enabled(i)` (R23, R24). -/
  ssr : Word
  /-- The channels 0 to N-1, in order. -/
  chans : List Channel
  /-- The fatal fault, once one has happened (60_exceptions.md R201). -/
  fault : Option FaultRecord
  /-- The model's mark that a step had no meaning (60_exceptions.md R205). -/
  refused : Option RefusalReason
deriving DecidableEq, Repr

/-- What the controller answers to a bus access (42_controller.md R171, R172); log entry 10. -/
inductive Reply where
  /-- The data of a read, zero-extended to 32 bits (20_memory.md R55). -/
  | data (v : Word)
  /-- A write was performed. -/
  | written
deriving DecidableEq, Repr

/-- What the last step showed outside (log entry 10). -/
structure Output where
  /-- The reply to the bus master; none after a tick, a reset or a faulting access (42_controller.md R171). -/
  reply : Option Reply
  /-- The channels whose interrupt line the step changed: the "line state changed" events (60_exceptions.md R208). They
  are simultaneous (20_memory.md R68); the list holds them by rising index only so that it is one value. -/
  lineChanges : List Nat
deriving DecidableEq, Repr

/-- The machine: the controller with its construction parameters, and what the model needs to drive it. -/
structure State where
  /-- The construction parameters, which no step changes (42_controller.md R180, log entry 1). -/
  cfg : Config
  /-- The controller's state (10_state.md R22). -/
  ctrl : Controller
  /-- The requests placed and not yet taken, the next one first (log entry 6). -/
  inbox : List Request
  /-- How many requests were drawn from the free environment (log entry 6). -/
  envSeq : Nat
  /-- How many phase draws were offered (log entry 5). -/
  draws : Nat
  /-- What the last step showed outside (log entry 10). -/
  out : Output
deriving DecidableEq, Repr

/-- Why the machine stops with a fault. -/
inductive Fault where
  /-- A bus access or a base tick asked of a controller whose fault is recorded: the controller takes no step
  (60_exceptions.md R201). Raised by every access and every tick in that state, never by a reset. Safe: nothing is
  claimed of a run that ends so. -/
  | halted (record : FaultRecord)
deriving DecidableEq, Repr

/-- Why the machine has no meaning for a step. -/
inductive Refusal where
  /-- An operation of the table without a meaning yet; no arm of `exec` answers so. Safe. -/
  | notModelled (mnemonic : String)
  /-- A bus access or a base tick asked of a controller whose refusal is recorded: it takes no further step
  (60_exceptions.md R205). Raised by every access and every tick in that state, never by a reset. Safe. -/
  | halted (reason : RefusalReason)
  /-- Parameters outside their domain (00_scope.md R11, log entry 1). Raised by the construction of a controller with
  such parameters, by every reset, and by every operation, access and tick of a machine that has them and records no
  fault or refusal; never with an admissible configuration. Safe. -/
  | badConfiguration
deriving DecidableEq, Repr

/-- A meaning's answer. -/
abbrev Result := Host.Outcome State Fault Refusal

/-- A channel at reset (10_state.md R39). -/
def Channel.reset (c : Config) : Channel :=
  { csr := resetCsr, cor := resetCor, remaining := remainingAtReset c.resetRemaining, psc := resetPsc }

/-- The controller at reset: all N channels created together, no fault, no refusal (10_state.md R39,
42_controller.md R170). -/
def Controller.reset (c : Config) : Controller :=
  { ssr := resetSsr
    chans := List.replicate c.channelCount (Channel.reset c)
    fault := none
    refused := none }

/-- No reply and no line change. -/
def Output.quiet : Output := { reply := none, lineChanges := [] }

/-- A machine with the given parameters, newly constructed, with no request placed (10_state.md R39; the model's own
fields are log entries 5, 6 and 10). It is plain data: `State.construct` is the construction, which refuses parameters
outside their domain, and a machine that has them takes no step (00_scope.md R11). -/
def State.resetOf (c : Config) : State :=
  { cfg := c, ctrl := Controller.reset c, inbox := [], envSeq := 0, draws := 0, out := Output.quiet }

/-- The machine right after reset: the platform's controller, newly constructed (70_reset_and_hazards.md R230). -/
def State.reset : State := State.resetOf platformConfig

end Sys2Proof.Machine
end

