-- ==== Sys2Proof/Machine/Operands.lean ====
section
/-! DEFINITION. The operand forms: what an access of a given width reads and writes of a 32-bit register
(20_memory.md R55, R56). -/

namespace Sys2Proof.Machine

/-- `mask(n)`, the integer 2^n - 1, as a 32-bit word (00_scope.md R13). -/
def lowMask (n : Nat) : Word := BitVec.ofNat 32 (2 ^ n - 1)

/-- A read of width `w`: the low `8*w` bits of the register's read value, zero-extended (20_memory.md R55). -/
def narrowRead (full : Word) (w : Width) : Word := full &&& lowMask (8 * w.bytes)

/-- A write of width `w`: the merged value the register's write rule is applied to; a 4-byte write takes the data
whole (20_memory.md R56, 41_channel_registers.md R130). -/
def merge (full v : Word) (w : Width) : Word :=
  match w with
  | .word => v
  | .byte | .half => (full &&& ~~~ lowMask (8 * w.bytes)) ||| (v &&& lowMask (8 * w.bytes))

end Sys2Proof.Machine
end

