-- ==== Sys2Proof/Machine/Flags.lean ====
section
/-! DEFINITION. The fields and flags of CSR, their algebra, and the interrupt level that follows from them. -/

namespace Sys2Proof.Machine

/-- The fields of a CSR word under a layout (10_state.md R25, R26). -/
def CsrFields.ofWord (l : CsrLayout) (csr : Word) : CsrFields :=
  { cmf := csr.getLsbD l.cmf
    ovf := csr.getLsbD l.ovf
    cmr := csr.extractLsb' l.cmr 2
    cks := csr.extractLsb' l.cks 2 }

/-- The CSR word with the given fields and every reserved bit 0 (10_state.md R27). -/
def CsrFields.toWord (l : CsrLayout) (f : CsrFields) : Word :=
  ((BitVec.ofBool f.cmf).setWidth 32 <<< l.cmf) ||| ((BitVec.ofBool f.ovf).setWidth 32 <<< l.ovf) |||
    (f.cmr.setWidth 32 <<< l.cmr) ||| (f.cks.setWidth 32 <<< l.cks)

/-- CSR_IMPL: the CSR bits that can be 1 (10_state.md R26). -/
def csrImplemented (l : CsrLayout) : Word :=
  CsrFields.toWord l { cmf := true, ovf := true, cmr := 3#2, cks := 3#2 }

/-- The word with only the CMF bit set: CMF_BIT (10_state.md R26). -/
def cmfBit (l : CsrLayout) : Word := (1#32) <<< l.cmf

/-- The clock select of a channel (10_state.md R31). -/
def Channel.cks (l : CsrLayout) (c : Channel) : BitVec 2 := (CsrFields.ofWord l c.csr).cks

/-- The compare-match flag of a channel (10_state.md R28). -/
def Channel.cmf (l : CsrLayout) (c : Channel) : Bool := (CsrFields.ofWord l c.csr).cmf

/-- The overflow flag of a channel (10_state.md R29). -/
def Channel.ovf (l : CsrLayout) (c : Channel) : Bool := (CsrFields.ofWord l c.csr).ovf

/-- The interrupt mask of a channel (10_state.md R30). -/
def Channel.cmr (l : CsrLayout) (c : Channel) : BitVec 2 := (CsrFields.ofWord l c.csr).cmr

/-- The fields a CSR write leaves, from the old fields and those of the merged value (41_channel_registers.md R132):
data never sets a flag, a written 0 clears it, and clearing a CMF that was 1 sets OVF. -/
def CsrFields.written (old m : CsrFields) : CsrFields :=
  { cmf := old.cmf && m.cmf
    ovf := if old.cmf && !m.cmf then true else old.ovf && m.ovf
    cmr := m.cmr
    cks := m.cks }

/-- The CSR word a write of the merged value `m` leaves (41_channel_registers.md R132). -/
def csrAfterWrite (l : CsrLayout) (old m : Word) : Word :=
  CsrFields.toWord l (CsrFields.written (CsrFields.ofWord l old) (CsrFields.ofWord l m))

/-- The level of a channel's interrupt line, a function of its CSR alone (10_state.md R36). -/
def Channel.irq (l : CsrLayout) (c : Channel) : Bool := c.cmf l && decide (c.cmr l ≠ 0)

/-- `enabled(i)`: bit i of SSR (10_state.md R24). -/
def Controller.enabled (k : Controller) (i : Nat) : Bool := k.ssr.getLsbD i

/-- The level of line `i` (10_state.md R36); there is no line beyond the channels. -/
def Controller.irq (l : CsrLayout) (k : Controller) (i : Nat) : Bool :=
  match k.chans[i]? with
  | some c => c.irq l
  | none => false

/-- The output of the block: the level vector of its lines at a step boundary (10_state.md R36,
92_eei_decisions.md D24). -/
def Controller.lines (l : CsrLayout) (k : Controller) : List Bool := k.chans.map (Channel.irq l)

/-- The lines whose level differs between two states of a controller with `n` channels (60_exceptions.md R208). -/
def changedLines (n : Nat) (l : CsrLayout) (k k' : Controller) : List Nat :=
  (List.range n).filter fun i => k.irq l i != k'.irq l i

end Sys2Proof.Machine
end

