-- ==== Sys2Proof/Machine/Ops.lean ====
section
/-! DEFINITION. The shared operations of a step: the guard of a stopped controller, the end of a step, taking a fault,
reaching a channel, answering a read. -/

namespace Sys2Proof.Machine

/-- A configuration outside its domain is refused (00_scope.md R11, log entry 1). -/
def whenAdmissible (c : Config) (r : Result) : Result :=
  if c.wf then r else .refused .badConfiguration

/-- A controller with a recorded fault or refusal takes no step (60_exceptions.md R201, R205); every bus access and
every base tick requires that there is none (42_controller.md R173, 40_countdown_clock.md R104), and that the
configuration is one the model does not refuse (00_scope.md R11). -/
def whenLive (s : State) (r : Result) : Result :=
  match s.ctrl.fault, s.ctrl.refused with
  | some f, _ => .fault (.halted f)
  | none, some why => .refused (.halted why)
  | none, none => whenAdmissible s.cfg r

/-- The end of a step: the controller's new state, the reply, and the lines it changed, all at once
(20_memory.md R62, R68). -/
def State.commit (s : State) (k : Controller) (reply : Option Reply) : State :=
  { s with
    ctrl := k
    out := { reply := reply, lineChanges := changedLines s.cfg.channelCount s.cfg.layout s.ctrl k } }

/-- Taking a fatal fault: it is recorded and nothing else of the controller changes; a faulting read returns no data
(60_exceptions.md R201). -/
def State.takeFault (s : State) (f : FaultRecord) : State :=
  s.commit { s.ctrl with fault := some f } none

/-- Entering the refusal state (60_exceptions.md R205): nothing else of the controller changes. -/
def State.takeRefusal (s : State) (why : RefusalReason) : State :=
  s.commit { s.ctrl with refused := some why } none

/-- The code of a fault kind, numbered in the order of the table of 60_exceptions.md R200. -/
def FaultRecord.code (f : FaultRecord) : Nat :=
  match f with
  | .access .badWidth _ _ _ => 1
  | .access .badSharedOffset _ _ _ => 2
  | .access .channelOutOfRange _ _ _ => 3
  | .access .badRegisterOffset _ _ _ => 4
  | .reservedClockSelect _ => 5

/-- The record of a fault an access raises: its kind, direction, offset and width (60_exceptions.md R200). -/
def faultOf (kind : AccessFault) (a : Access) : FaultRecord := .access kind a.dir a.offset a.width

/-- A register operation of channel `ch`. The channel is reached only by an index of the channel array
(42_controller.md R174); an index beyond it is the fault of the decode (42_controller.md R173, log entry 11). -/
def onChannel (s : State) (ch : Nat) (a : Access) (run : Channel → Result) : Result :=
  whenLive s <|
    match s.ctrl.chans[ch]? with
    | some c => run c
    | none => .next (s.takeFault (faultOf .channelOutOfRange a))

/-- A read of a register whose 32-bit read value is `full`: it answers and changes no state of the controller
(20_memory.md R55, R60). -/
def State.answer (s : State) (full : Word) (w : Width) : State :=
  s.commit s.ctrl (some (.data (narrowRead full w)))

/-- The controller with channel `ch` replaced. -/
def Controller.setChannel (k : Controller) (ch : Nat) (c : Channel) : Controller :=
  { k with chans := k.chans.set ch c }

/-- A write of channel `ch` that leaves it as `c`. -/
def State.writeChannel (s : State) (ch : Nat) (c : Channel) : State :=
  s.commit (s.ctrl.setChannel ch c) (some .written)

/-- One phase draw has been offered; the next one is another free value (log entry 5). -/
def State.nextDraw (s : State) : State := { s with draws := s.draws + 1 }

/-- `draw_phase(i, d)`: any value in [0, d), a free input (00_scope.md section 4). In [0, 1) the value is 0
(40_countdown_clock.md R115). -/
def drawPhase (seq i d : Nat) : Nat :=
  if d ≤ 1 then 0 else Config.freePhase seq i % d

end Sys2Proof.Machine
end

