-- ==== Sys2Proof/Machine/Bus.lean ====
section
/-! DEFINITION. Where the next request comes from, the construction of a controller, and the program notation of
30_encoding.md R80 as requests. -/

namespace Sys2Proof.Machine

/-- The next request and the machine without it: the head of the inbox, or the free environment's next one where
nothing is placed (log entry 6). -/
def State.takeRequest (s : State) : Request × State :=
  match s.inbox with
  | r :: rest => (r, { s with inbox := rest })
  | [] => (Config.freeRequest s.envSeq, { s with envSeq := s.envSeq + 1 })

/-- The machine with requests placed ahead of those already there (log entry 6). -/
def State.place (s : State) (rs : List Request) : State := { s with inbox := rs ++ s.inbox }

/-- The construction of a machine with given parameters, with no request placed: parameters outside their domain are
refused (00_scope.md R11, 42_controller.md R170, log entry 1). -/
def State.construct (c : Config) : Result := whenAdmissible c (.next (State.resetOf c))

/-- `RESET`: the controller replaced by a new one with the same parameters, at any step boundary, a recorded fault or
refusal included (70_reset_and_hazards.md R230); parameters outside their domain are refused (00_scope.md R11). The
requests that follow it and the counters of the free values are the environment's and stay (log entry 6). -/
def resetEvent (s : State) : Result :=
  whenAdmissible s.cfg (.next (s.commit (Controller.reset s.cfg) none))

/-- A line of a program in the spec's notation (30_encoding.md R80). -/
inductive ProgramLine where
  | rd (w : Width) (off : Nat)
  | wr (w : Width) (off : Nat) (data : Word)
  | tick (n : Nat)
  | reset
deriving DecidableEq, Repr

/-- The requests of a line: `TICK n` is n consecutive base ticks (30_encoding.md R80). -/
def ProgramLine.requests (p : ProgramLine) : List Request :=
  match p with
  | .rd w off => [.access { dir := .read, width := w.bytes, offset := off, data := 0 }]
  | .wr w off data => [.access { dir := .write, width := w.bytes, offset := off, data := data }]
  | .tick n => List.replicate n .tick
  | .reset => [.reset]

/-- The descriptor of a line that is an access: `D<<15 | S<<13 | offset` (30_encoding.md R71, R80). -/
def ProgramLine.descriptor (p : ProgramLine) : Option (BitVec 16) :=
  match p with
  | .rd w off => if off < 0x2000 then some (descriptorOf .read w off) else none
  | .wr w off _ => if off < 0x2000 then some (descriptorOf .write w off) else none
  | .tick _ => none
  | .reset => none

/-- The mnemonic aliases of the notation: a 4-byte access of the operation's register (30_encoding.md R80). -/
def ProgramLine.ofInstr (i : Instr) : ProgramLine :=
  match i.dir with
  | .read => .rd i.width i.offset
  | .write => .wr i.width i.offset i.data

/-- The requests of a program, line after line. -/
def programRequests (ps : List ProgramLine) : List Request := ps.flatMap ProgramLine.requests

end Sys2Proof.Machine
end

