-- ==== Sys2Proof/Machine/Clock.lean ====
section
/-! DEFINITION. The countdown clock of a channel: the divisor, the base tick with its prescaler, decrementer and compare
match, and the clock operations that the register writes invoke (40_countdown_clock.md R101). -/

namespace Sys2Proof.Machine

/-- `div(cks)`, the divisor of the base clock (00_scope.md R15). -/
def divisor (cks : BitVec 2) : Nat :=
  match cks.toNat with
  | 0 => 8
  | 1 => 32
  | 2 => 128
  | _ => 1

/-- The divisor a channel counts with (40_countdown_clock.md R102). -/
def Channel.div (l : CsrLayout) (c : Channel) : Nat := divisor (c.cks l)

/-- `get_count()`, the 32-bit read value of CNT (41_channel_registers.md R139). -/
def Channel.count (enabled : Bool) (c : Channel) : Word :=
  if enabled then c.cor - c.remaining else 0

/-- `set_count(m)`: the decrementer becomes `limit - m`, or the limit where m is above it, and the prescaler
re-anchors (41_channel_registers.md R140, 40_countdown_clock.md R113). -/
def Channel.setCount (c : Channel) (m : Word) : Channel :=
  { c with remaining := if c.cor < m then c.cor else c.cor - m, psc := 0 }

/-- `set_limit(m)` with reset-on-set: a brand-new period, re-anchored (41_channel_registers.md R144,
40_countdown_clock.md R113). -/
def Channel.setLimit (c : Channel) (m : Word) : Channel :=
  { c with cor := m, remaining := m, psc := 0 }

/-- `resume()`: counting starts from the current decrementer, with a drawn phase (40_countdown_clock.md R110). -/
def Channel.resume (l : CsrLayout) (seq i : Nat) (c : Channel) : Channel :=
  { c with psc := drawPhase seq i (c.div l) }

/-- `pause()`: the decrementer is frozen and the phase discarded (40_countdown_clock.md R112). -/
def Channel.pause (c : Channel) : Channel := { c with psc := 0 }

/-- A CSR write's effect on the channel: the new CSR word, and the re-anchor with a drawn phase if the channel is
enabled, phase 0 if not (41_channel_registers.md R133, 40_countdown_clock.md R111). -/
def Channel.setCsr (l : CsrLayout) (seq i : Nat) (enabled : Bool) (c : Channel) (csr : Word) : Channel :=
  { c with
    csr := csr
    psc := if enabled then drawPhase seq i (divisor (CsrFields.ofWord l csr).cks) else 0 }

/-- `COMPARE_MATCH`: the decrementer reloads and CMF is set, in one step (40_countdown_clock.md R107). -/
def Channel.compareMatch (l : CsrLayout) (c : Channel) : Channel :=
  { c with remaining := c.cor, csr := c.csr ||| cmfBit l }

/-- `PRESCALED_TICK`: none is the refusal ZeroLimitRunning (40_countdown_clock.md R105, R106, R109). -/
def Channel.prescaledTick (l : CsrLayout) (c : Channel) : Option Channel :=
  if c.cor = 0 then none
  else if c.remaining ≤ 1 then some (c.compareMatch l)
  else some { c with remaining := c.remaining - 1 }

/-- A base tick on an enabled channel: the prescaler counts, and on its wrap the decrementer steps
(40_countdown_clock.md R104). -/
def Channel.tick (l : CsrLayout) (c : Channel) : Option Channel :=
  if c.psc + 1 < c.div l then some { c with psc := c.psc + 1 }
  else Channel.prescaledTick l { c with psc := 0 }

/-- A base tick on channel `i` of a block whose SSR is `ssr`: a disabled channel ignores it (40_countdown_clock.md
R104, R117). -/
def tickIfEnabled (l : CsrLayout) (ssr : Word) (i : Nat) (c : Channel) : Option Channel :=
  if ssr.getLsbD i then c.tick l else some c

/-- A base tick on every channel from index `i` on; none if one of them refuses (40_countdown_clock.md R104, R118). -/
def tickFrom (l : CsrLayout) (ssr : Word) (i : Nat) (cs : List Channel) : Option (List Channel) :=
  match cs with
  | [] => some []
  | c :: rest =>
    match tickIfEnabled l ssr i c, tickFrom l ssr (i + 1) rest with
    | some c', some rest' => some (c' :: rest')
    | _, _ => none

/-- `TICK`: one base-clock tick applied to every channel in one step; if any channel's prescaled tick refuses, the
whole step is the refusal (40_countdown_clock.md R104). -/
def tickEvent (s : State) : Result :=
  whenLive s <|
    match tickFrom s.cfg.layout s.ctrl.ssr 0 s.ctrl.chans with
    | some cs => .next (s.commit { s.ctrl with chans := cs } none)
    | none => .next (s.takeRefusal .zeroLimitRunning)

end Sys2Proof.Machine
end

