-- ==== Sys2Proof/Machine/Cnt.lean ====
section
/-! DEFINITION. The live counter register of a channel (41_channel_registers.md R139 to R142). -/

namespace Sys2Proof.Machine

/-- `CNT.RD` (41_channel_registers.md R139). -/
def execCntRd (ch : Nat) (w : Width) (s : State) : Result :=
  onChannel s ch (Instr.cntRd ch w).access fun c => .next (s.answer (c.count (s.ctrl.enabled ch)) w)

/-- `CNT.WR` (41_channel_registers.md R140): a narrow write merges with the read value, which is 0 for a disabled
channel (R142). -/
def execCntWr (ch : Nat) (w : Width) (v : Word) (s : State) : Result :=
  onChannel s ch (Instr.cntWr ch w v).access fun c =>
    .next (s.writeChannel ch (c.setCount (merge (c.count (s.ctrl.enabled ch)) v w)))

end Sys2Proof.Machine
end

