-- ==== Sys2Proof/Machine/Cor.lean ====
section
/-! DEFINITION. The compare/reload register of a channel (41_channel_registers.md R143, R144). -/

namespace Sys2Proof.Machine

/-- `COR.RD` (41_channel_registers.md R143). -/
def execCorRd (ch : Nat) (w : Width) (s : State) : Result :=
  onChannel s ch (Instr.corRd ch w).access fun c => .next (s.answer c.cor w)

/-- `COR.WR` (41_channel_registers.md R144). -/
def execCorWr (ch : Nat) (w : Width) (v : Word) (s : State) : Result :=
  onChannel s ch (Instr.corWr ch w v).access fun c =>
    .next (s.writeChannel ch (c.setLimit (merge c.cor v w)))

end Sys2Proof.Machine
end

