-- ==== Sys2Proof/Machine/Csr.lean ====
section
/-! DEFINITION. The status/control register of a channel (41_channel_registers.md R131 to R138). -/

namespace Sys2Proof.Machine

/-- `CSR.RD` (41_channel_registers.md R131). -/
def execCsrRd (ch : Nat) (w : Width) (s : State) : Result :=
  onChannel s ch (Instr.csrRd ch w).access fun c => .next (s.answer c.csr w)

/-- `CSR.WR` (41_channel_registers.md R133). -/
def execCsrWr (ch : Nat) (w : Width) (v : Word) (s : State) : Result :=
  onChannel s ch (Instr.csrWr ch w v).access fun c =>
    .next (s.nextDraw.writeChannel ch
      (c.setCsr s.cfg.layout s.draws ch (s.ctrl.enabled ch) (csrAfterWrite s.cfg.layout c.csr (merge c.csr v w))))

end Sys2Proof.Machine
end

