-- ==== Sys2Proof/Machine/Ssr.lean ====
section
/-! DEFINITION. The shared start/stop register (42_controller.md R175, R176). -/

namespace Sys2Proof.Machine

/-- What an SSR write from `old` to `new` does to channel `i`: a bit that rises resumes it, a bit that falls pauses it,
a bit written with its current value causes no transition (42_controller.md R176). -/
def ssrTransition (l : CsrLayout) (seq : Nat) (old new : Word) (i : Nat) (c : Channel) : Channel :=
  if new.getLsbD i && !old.getLsbD i then c.resume l seq i
  else if !new.getLsbD i && old.getLsbD i then c.pause
  else c

/-- The controller after an SSR write of the merged value `m`: every channel's transition and SSR itself together;
bits N..31 stay 0 (42_controller.md R176). -/
def Controller.writeSsr (n : Nat) (l : CsrLayout) (seq : Nat) (k : Controller) (m : Word) : Controller :=
  { k with
    chans := k.chans.mapIdx (ssrTransition l seq k.ssr m)
    ssr := m &&& lowMask n }

/-- `SSR.RD` (42_controller.md R175). -/
def execSsrRd (w : Width) (s : State) : Result :=
  whenLive s (.next (s.answer s.ctrl.ssr w))

/-- `SSR.WR` (42_controller.md R176). The phases it draws are one draw number for all channels. -/
def execSsrWr (w : Width) (v : Word) (s : State) : Result :=
  whenLive s <| .next <| s.nextDraw.commit
    (s.ctrl.writeSsr s.cfg.channelCount s.cfg.layout s.draws (merge s.ctrl.ssr v w)) (some .written)

end Sys2Proof.Machine
end

