-- ==== Sys2Proof/Machine/Dispatch.lean ====
section
/-! DEFINITION. The meaning of every bus operation (30_encoding.md R74), one arm per constructor. -/

namespace Sys2Proof.Machine

def exec (i : Instr) (s : State) : Host.Outcome State Fault Refusal :=
  match i with
  | .ssrRd w => Sys2Proof.Machine.execSsrRd w s
  | .ssrWr w v => Sys2Proof.Machine.execSsrWr w v s
  | .csrRd ch w => Sys2Proof.Machine.execCsrRd ch w s
  | .csrWr ch w v => Sys2Proof.Machine.execCsrWr ch w v s
  | .cntRd ch w => Sys2Proof.Machine.execCntRd ch w s
  | .cntWr ch w v => Sys2Proof.Machine.execCntWr ch w v s
  | .corRd ch w => Sys2Proof.Machine.execCorRd ch w s
  | .corWr ch w v => Sys2Proof.Machine.execCorWr ch w v s

end Sys2Proof.Machine
end

