-- ==== Sys2Proof/Machine/Run.lean ====
section
/-! DEFINITION. A request performed: a bus access, a base tick or a reset (00_scope.md R14, 30_encoding.md R76). -/

namespace Sys2Proof.Machine

/-- A bus access: decoded, and then the operation it selects is performed, or the fault of the first failing test is
taken (42_controller.md R171 to R173). -/
def accessEvent (a : Access) (s : State) : Result :=
  whenLive s <|
    match decode s.cfg.channelCount a with
    | .ok i => exec i s
    | .error kind => .next (s.takeFault (faultOf kind a))

/-- A request performed, as one atomic transition (00_scope.md R14). -/
def perform (r : Request) (s : State) : Result :=
  match r with
  | .access a => accessEvent a s
  | .tick => tickEvent s
  | .reset => resetEvent s

end Sys2Proof.Machine
end

