-- ==== Sys2Proof/Machine/Step.lean ====
section
/-! DEFINITION. One step of the machine: the next request is taken and performed (00_scope.md R14). -/

namespace Sys2Proof.Machine

/-- One step of the machine (00_scope.md R14): the next request, from the inbox or from the free environment
(log entry 6), performed on the machine without it. -/
def step (s : State) : Host.Outcome State Fault Refusal :=
  perform s.takeRequest.1 s.takeRequest.2

/-- The machine with one bus access, given as the opcode table numbers its bits, placed as the next request: it stands
for the bus master's issuing that access (log entries 6 and 9). -/
def State.withFetchWord (s : State) (nbits w : Nat) : State :=
  s.place [.access (Access.ofTableBits nbits w)]

end Sys2Proof.Machine
end

