-- ==== Sys2Proof/Machine/Snapshot.lean ====
section
/-! DEFINITION. Save and restore of the controller by its register values (10_state.md R38). -/

namespace Sys2Proof.Machine

/-- What is saved of a channel: CSR, CNT as `limit - remaining`, COR (10_state.md R38). -/
structure SavedChannel where
  csr : Word
  cnt : Word
  cor : Word
deriving DecidableEq, Repr

/-- What is saved of a controller: SSR, with each channel's enabled bit, and the channels (10_state.md R38). -/
structure Saved where
  ssr : Word
  chans : List SavedChannel
deriving DecidableEq, Repr

/-- A channel saved; its count is `COR - remaining` even while it is disabled (10_state.md R38). -/
def Channel.save (c : Channel) : SavedChannel :=
  { csr := c.csr, cnt := c.cor - c.remaining, cor := c.cor }

/-- A controller saved (10_state.md R38). -/
def Controller.save (k : Controller) : Saved := { ssr := k.ssr, chans := k.chans.map Channel.save }

/-- A channel restored: its prescaler is set as for a resume where it is enabled, and is 0 where not (10_state.md R35,
R38). -/
def SavedChannel.restore (l : CsrLayout) (seq : Nat) (ssr : Word) (i : Nat) (c : SavedChannel) : Channel :=
  { csr := c.csr
    cor := c.cor
    remaining := c.cor - c.cnt
    psc := if ssr.getLsbD i then drawPhase seq i (divisor (CsrFields.ofWord l c.csr).cks) else 0 }

/-- A controller restored from what was saved (10_state.md R38). DESIGN CHOICE, safe: no fault and no refusal is recorded
in it, and the record is taken as it stands (log entry 15). -/
def Saved.restore (l : CsrLayout) (seq : Nat) (v : Saved) : Controller :=
  { ssr := v.ssr
    chans := v.chans.mapIdx (SavedChannel.restore l seq v.ssr)
    fault := none
    refused := none }

/-- The machine with its controller restored; its phases are one draw number (log entry 5). DESIGN CHOICE, safe: the spec
does not say what a restore shows outside. The output is replaced: no reply, and the lines whose level differs from that
of the controller replaced, as a step reports them (60_exceptions.md R208); the parameters, the requests and the free
environment's counter stay (log entry 15). -/
def State.restore (s : State) (v : Saved) : State :=
  s.nextDraw.commit (v.restore s.cfg.layout s.draws) none

end Sys2Proof.Machine
end

