-- ==== Sys2Proof/Machine/Timing.lean ====
section
/-! DEFINITION. The timing figures: functions of the configuration and the state, in base ticks and in seconds. No step
reads them (70_reset_and_hazards.md R250, R251). -/

namespace Sys2Proof.Machine

/-- A channel's full period in base ticks, `COR * div(CKS)` (40_countdown_clock.md R108, 70_reset_and_hazards.md
R250). -/
def Channel.periodTicks (l : CsrLayout) (c : Channel) : Nat := c.cor.toNat * c.div l

/-- The base ticks to the next compare match of an enabled channel with COR above 0, `max(r, 1) * d - p`
(40_countdown_clock.md R114). -/
def Channel.ticksToMatch (l : CsrLayout) (c : Channel) : Nat := max c.remaining.toNat 1 * c.div l - c.psc

/-- The time of `ticks` base ticks in seconds: one base tick is `1 / BASE_HZ` s (70_reset_and_hazards.md R250). -/
def secondsOf (cfg : Config) (ticks : Nat) : Rat := (ticks : Rat) / (cfg.baseHz : Rat)

/-- The counting rate of an enabled channel in counts per second, `BASE_HZ / div(CKS)` (40_countdown_clock.md R102,
60_exceptions.md R216). -/
def Channel.rate (cfg : Config) (c : Channel) : Rat := (cfg.baseHz : Rat) / (c.div cfg.layout : Rat)

/-- The size of the register block in bytes, `0x10 * (N + 1)` (20_memory.md R50). -/
def blockSize (cfg : Config) : Nat := 0x10 * (cfg.channelCount + 1)

end Sys2Proof.Machine
end

