-- ==== Sys2Proof/Safety.lean ====
section
/-! DEFINITION. What the statements call a working controller, a well-formed machine and a safe run. -/

namespace Sys2Proof.Machine

/-- The controller takes steps: its configuration is not refused (00_scope.md R11), and no fault and no refusal is
recorded (60_exceptions.md R201, R205). -/
abbrev State.Live (s : State) : Prop := s.cfg.wf ∧ s.ctrl.fault = none ∧ s.ctrl.refused = none

/-- The domain of a channel's state (10_state.md R22, R27, R33, R35): reserved CSR bits 0, `remaining` in [0, cor],
`psc` in [0, div(CKS)) and 0 while the channel is disabled. -/
abbrev Channel.Wf (l : CsrLayout) (enabled : Bool) (c : Channel) : Prop :=
  c.csr &&& ~~~ csrImplemented l = 0 ∧ c.remaining ≤ c.cor ∧ c.psc < c.div l ∧ (enabled = false → c.psc = 0)

/-- The domain of the controller's state (10_state.md R22, R23): N channels in their domain, SSR bits N..31 at 0, and at
most one of the marks that stop it. -/
abbrev Controller.Wf (cfg : Config) (k : Controller) : Prop :=
  k.chans.length = cfg.channelCount ∧
  k.ssr &&& ~~~ lowMask cfg.channelCount = 0 ∧
  (∀ i, (h : i < k.chans.length) → Channel.Wf cfg.layout (k.enabled i) k.chans[i]) ∧
  (k.fault = none ∨ k.refused = none)

/-- The invariant of the machine: parameters in their domain (00_scope.md section 4), state in its domain
(10_state.md R22). -/
abbrev State.Wf (s : State) : Prop := s.cfg.wf ∧ s.ctrl.Wf s.cfg

/-- A run of `k` steps is safe when it reaches a state, and a working one: a run that ends with a fault or a refusal
recorded is a failed run, never a final state (60_exceptions.md R201, R205). -/
def SafeRun (k : Nat) (s : State) : Prop :=
  ∃ t, core.run k s = .next t ∧ t.Live

/-- What every operation leaves of the machine besides the controller: the parameters, the requests still to come and
the free environment's counter. -/
abbrev State.Keeps (s t : State) : Prop := t.cfg = s.cfg ∧ t.inbox = s.inbox ∧ t.envSeq = s.envSeq

/-- No enabled channel has COR 0, so that no base tick refuses (70_reset_and_hazards.md R247). -/
def Controller.NoZeroLimitRunning (k : Controller) : Prop :=
  ∀ i c, k.enabled i = true → k.chans[i]? = some c → c.cor ≠ 0

/-- A request that a program keeping to 70_reset_and_hazards.md R247 and R248 can make: a reset, a base tick, or an
access on the register map that, if it writes a COR, writes all of it and not 0. -/
def BenignRequest (n : Nat) (r : Request) : Prop :=
  match r with
  | .access a => ∃ i, decode n a = .ok i ∧ ∀ ch w v, i = .corWr ch w v → w = .word ∧ v ≠ 0
  | .tick => True
  | .reset => True

/-- A tick of the controller would refuse on channel `i`: it is enabled, its COR is 0 and its prescaler wraps
(40_countdown_clock.md R109, 70_reset_and_hazards.md R247). -/
def Controller.TickRefusesAt (l : CsrLayout) (k : Controller) (i : Nat) : Prop :=
  k.enabled i = true ∧ ∃ c, k.chans[i]? = some c ∧ c.cor = 0 ∧ ¬ c.psc + 1 < c.div l

end Sys2Proof.Machine
end

