-- ==== Sys2Proof/Certificates/Slice0/Obligations.lean ====
section
/-! DEFINITION. What is claimed of the model, for the provers: one `def Obligations.<Name> : Prop` per claim. The
spec's rule or section each rests on is in OBLIGATIONS.json and in its docstring. -/

open Sys2Proof Sys2Proof.Machine

/-! ## Encoding and decoding -/

/-- 30_encoding.md R71, R74: every operation of a controller with at most 32 channels is what its words decode to. -/
def Obligations.DecodeOfEncode : Prop :=
  ∀ (n : Nat) (i : Instr), n ≤ 32 → i.wf n →
    decode n (Access.ofDescriptor (encode i).1 (encode i).2) = .ok i

/-- 30_encoding.md R71, R78: each descriptor that decodes is the descriptor of the operation it decodes to, and a
write's data word is its data, so no two descriptors name one operation. -/
def Obligations.EncodeOfDecode : Prop :=
  ∀ (n : Nat) (d : BitVec 16) (v : Word) (i : Instr), decode n (Access.ofDescriptor d v) = .ok i →
    (encode i).1 = d ∧ (i.dir = .write → (encode i).2 = v)

/-- 20_memory.md R54: the decoder accepts exactly the accesses on the register map, and an accepted access, of whatever
width, addresses the register whose own offset it names. -/
def Obligations.DecodeAcceptsTheRegisterMap : Prop :=
  ∀ (n : Nat) (a : Access), ((∃ i, decode n a = .ok i) ↔ a.OnMap n) ∧
    ∀ i, decode n a = .ok i → i.offset = a.offset ∧ i.width.bytes = a.width ∧ i.dir = a.dir

/-- 42_controller.md R173: which fault an access raises, by the first failing test: width, shared group, channel
index, register slot. -/
def Obligations.DecodeFaultOrder : Prop :=
  ∀ (n : Nat) (a : Access),
    let okWidth := a.width = 1 ∨ a.width = 2 ∨ a.width = 4
    (decode n a = .error .badWidth ↔ ¬ okWidth) ∧
    (decode n a = .error .badSharedOffset ↔ okWidth ∧ 0 < a.offset ∧ a.offset < 0x10) ∧
    (decode n a = .error .channelOutOfRange ↔ okWidth ∧ 0x10 ≤ a.offset ∧ n ≤ a.offset / 0x10 - 1) ∧
    (decode n a = .error .badRegisterOffset ↔
      okWidth ∧ 0x10 ≤ a.offset ∧ a.offset / 0x10 - 1 < n ∧
        a.offset % 0x10 ≠ 0x0 ∧ a.offset % 0x10 ≠ 0x4 ∧ a.offset % 0x10 ≠ 0x8)

/-- Words of 95_test_vectors.md L2-1 and L3, written out from 30_encoding.md R71, decode as the vectors say (N = 5). -/
def Obligations.KnownDescriptorsDecode : Prop :=
  decode 5 (Access.ofDescriptor 0x4000#16 0) = .ok (.ssrRd .word) ∧
  decode 5 (Access.ofDescriptor 0x8000#16 0x1#32) = .ok (.ssrWr .byte 0x1#32) ∧
  decode 5 (Access.ofDescriptor 0x4010#16 0) = .ok (.csrRd 0 .word) ∧
  decode 5 (Access.ofDescriptor 0xC010#16 0x23#32) = .ok (.csrWr 0 .word 0x23#32) ∧
  decode 5 (Access.ofDescriptor 0x2014#16 0) = .ok (.cntRd 0 .half) ∧
  decode 5 (Access.ofDescriptor 0xC054#16 0xA#32) = .ok (.cntWr 4 .word 0xA#32) ∧
  decode 5 (Access.ofDescriptor 0x4058#16 0) = .ok (.corRd 4 .word) ∧
  decode 5 (Access.ofDescriptor 0xC018#16 0x3E8#32) = .ok (.corWr 0 .word 0x3E8#32) ∧
  decode 5 (Access.ofDescriptor 0x6060#16 0) = .error .badWidth ∧
  decode 5 (Access.ofDescriptor 0xC00C#16 0) = .error .badSharedOffset ∧
  decode 5 (Access.ofDescriptor 0x406C#16 0) = .error .channelOutOfRange ∧
  decode 5 (Access.ofDescriptor 0x405C#16 0) = .error .badRegisterOffset

/-! ## Steps -/

/-- A step whose next request is a bus access that decodes performs exactly the operation, on the machine without that
request (42_controller.md section 1; the request list is the model's, log entry 6). -/
def Obligations.StepPerformsDecodedOperation : Prop :=
  ∀ (s : State) (a : Access) (rest : List Request) (i : Instr),
    s.Live → s.inbox = .access a :: rest → decode s.cfg.channelCount a = .ok i →
    step s = exec i { s with inbox := rest }

/-- 60_exceptions.md R201: a step whose access does not decode records the fault with the access's direction, offset
and width, changes nothing else of the controller, and answers nothing; no line changes. -/
def Obligations.StepRecordsDecodeFault : Prop :=
  ∀ (s : State) (a : Access) (rest : List Request) (kind : AccessFault),
    s.Live → s.inbox = .access a :: rest → decode s.cfg.channelCount a = .error kind →
    ∃ t, step s = .next t ∧
      t.ctrl = { s.ctrl with fault := some (.access kind a.dir a.offset a.width) } ∧
      t.cfg = s.cfg ∧ t.inbox = rest ∧ t.envSeq = s.envSeq ∧ t.draws = s.draws ∧
      t.out.reply = none ∧ t.out.lineChanges = []

/-- 60_exceptions.md R201: with a fault recorded no operation, no bus access and no base tick is a step; the machine
stops with that fault (as the outcome of the model, log entry 7). -/
def Obligations.FaultedControllerTakesNoStep : Prop :=
  ∀ (s : State) (f : FaultRecord), s.ctrl.fault = some f →
    (∀ i, exec i s = .fault (.halted f)) ∧
    (∀ a rest, s.inbox = .access a :: rest → step s = .fault (.halted f)) ∧
    (∀ rest, s.inbox = .tick :: rest → step s = .fault (.halted f))

/-- 60_exceptions.md R205: with a refusal recorded no operation, no bus access and no base tick is a step (as the
outcome of the model, log entry 8). -/
def Obligations.RefusedControllerTakesNoStep : Prop :=
  ∀ (s : State) (why : RefusalReason), s.ctrl.fault = none → s.ctrl.refused = some why →
    (∀ i, exec i s = .refused (.halted why)) ∧
    (∀ a rest, s.inbox = .access a :: rest → step s = .refused (.halted why)) ∧
    (∀ rest, s.inbox = .tick :: rest → step s = .refused (.halted why))

/-- 60_exceptions.md R201: whatever the next request is, a step of a stopped controller that has a next state is a
reset, and it leaves the reset state. -/
def Obligations.OnlyResetLeavesAStop : Prop :=
  ∀ s t : State, ¬ s.Live → step s = .next t →
    s.takeRequest.1 = .reset ∧ t.ctrl = Controller.reset s.cfg

/-- 60_exceptions.md R203: no step leaves the fault kind ReservedClockSelect recorded, whatever state it starts in. -/
def Obligations.NoStepRecordsReservedClockSelect : Prop :=
  ∀ (s t : State) (i : Nat), step s = .next t → t.ctrl.fault ≠ some (.reservedClockSelect i)

/-- 42_controller.md R180: no step changes N, BASE_HZ or another construction parameter. -/
def Obligations.StepKeepsParameters : Prop :=
  ∀ s t : State, step s = .next t → t.cfg = s.cfg

/-! ## Reset -/

/-- 70_reset_and_hazards.md R230 with the values of 10_state.md R39: a reset step, from any state, a recorded fault or
refusal included, leaves SSR 0, N channels each with CSR 0, COR 0xFFFFFFFF, the decrementer RESET_REMAINING and
prescaler 0, no fault, no refusal, and every line deasserted. -/
def Obligations.ResetStepLeavesResetState : Prop :=
  ∀ (s : State) (rest : List Request), s.cfg.wf → s.inbox = .reset :: rest →
    ∃ t, step s = .next t ∧ t.cfg = s.cfg ∧ t.ctrl.ssr = 0 ∧ t.ctrl.fault = none ∧ t.ctrl.refused = none ∧
      t.ctrl.chans.length = s.cfg.channelCount ∧
      (∀ c ∈ t.ctrl.chans, c.csr = 0 ∧ c.cor = 0xFFFFFFFF#32 ∧ c.psc = 0 ∧
        c.remaining = (match s.cfg.resetRemaining with | .zero => 0 | .limit => 0xFFFFFFFF#32)) ∧
      (∀ i, t.ctrl.irq t.cfg.layout i = false)

/-- 10_state.md R39 and 00_scope.md R10: the machine after reset has five channels, and each element of its state at
its reset value; the decrementer is 0 or 0xFFFFFFFF, the platform's free choice (log entry 3). -/
def Obligations.ResetMachineState : Prop :=
  State.reset.cfg.channelCount = 5 ∧ State.reset.ctrl.ssr = 0 ∧
  State.reset.ctrl.fault = none ∧ State.reset.ctrl.refused = none ∧
  State.reset.ctrl.chans.length = 5 ∧
  ∀ c ∈ State.reset.ctrl.chans, c.csr = 0 ∧ c.cor = 0xFFFFFFFF#32 ∧ c.psc = 0 ∧
    (c.remaining = 0 ∨ c.remaining = 0xFFFFFFFF#32)

/-- 95_test_vectors.md L1-10: right after construction, with any admissible parameters, SSR reads 0 and each channel's
CSR reads 0, CNT reads 0 and COR reads 0xFFFFFFFF. -/
def Obligations.ResetStateReads : Prop :=
  ∀ (cfg : Config) (ch : Nat), cfg.wf → ch < cfg.channelCount →
    (∃ t, exec (.ssrRd .word) (State.resetOf cfg) = .next t ∧ t.out.reply = some (.data 0)) ∧
    (∃ t, exec (.csrRd ch .word) (State.resetOf cfg) = .next t ∧ t.out.reply = some (.data 0)) ∧
    (∃ t, exec (.cntRd ch .word) (State.resetOf cfg) = .next t ∧ t.out.reply = some (.data 0)) ∧
    (∃ t, exec (.corRd ch .word) (State.resetOf cfg) = .next t ∧ t.out.reply = some (.data 0xFFFFFFFF#32))

/-- 00_scope.md section 4: a configuration outside its domain (N outside 1 to 32, a BASE_HZ of 0, a CSR layout whose
field bits are not distinct bits of the register) is refused, and every other one is not. A construction refuses it and
constructs the reset machine of every other; a machine that has such parameters takes no step at all, and where it
records no fault and no refusal, or the next request is a reset, the outcome is that refusal. That the refusal is an
outcome is the model's choice (log entry 1), and so is which layouts are admissible (log entry 4). -/
def Obligations.BadConfigurationRefused : Prop :=
  (∀ cfg : Config, (¬ cfg.wf → State.construct cfg = .refused .badConfiguration) ∧
    (cfg.wf → State.construct cfg = .next (State.resetOf cfg))) ∧
  ∀ s : State, ¬ s.cfg.wf →
    (∀ t, step s ≠ .next t) ∧ (∀ i t, exec i s ≠ .next t) ∧
    (s.ctrl.fault = none → s.ctrl.refused = none →
      step s = .refused .badConfiguration ∧ ∀ i, exec i s = .refused .badConfiguration) ∧
    (∀ rest, s.inbox = .reset :: rest → step s = .refused .badConfiguration)

/-- The invariant holds of every machine newly constructed with admissible parameters, and of the machine after reset
(10_state.md section 2). -/
def Obligations.ResetStateIsWellFormed : Prop :=
  (∀ cfg : Config, cfg.wf → (State.resetOf cfg).Wf) ∧ State.reset.Wf

/-- Every step keeps the domain of the state, from every well-formed state: N channels, SSR bits N..31 and the reserved
CSR bits at 0, `remaining` in [0, COR], `psc` in [0, div(CKS)) and 0 while disabled, at most one stop mark
(10_state.md section 2; 40_countdown_clock.md section 4). -/
def Obligations.StepKeepsWellFormed : Prop :=
  ∀ s t : State, s.Wf → step s = .next t → t.Wf

/-! ## Reads -/

/-- 42_controller.md R175: SSR.RD completes at every width: it answers the low bits of SSR, with bits N..31 read as 0 on
a well-formed machine, and changes no state. -/
def Obligations.SsrReadCompletes : Prop :=
  ∀ (s : State) (w : Width), s.Live →
    ∃ t, exec (.ssrRd w) s = .next t ∧ t.ctrl = s.ctrl ∧ s.Keeps t ∧ t.draws = s.draws ∧
      ∃ r, t.out.reply = some (.data r) ∧ r.toNat = s.ctrl.ssr.toNat % 2 ^ (8 * w.bytes) ∧
        (s.Wf → ∀ j, s.cfg.channelCount ≤ j → r.getLsbD j = false)

/-- 41_channel_registers.md R131: CSR.RD completes at every width: it answers the low bits of the stored CSR, with the
reserved bits read as 0 on a well-formed machine, and changes no state. -/
def Obligations.CsrReadCompletes : Prop :=
  ∀ (s : State) (ch : Nat) (w : Width) (c : Channel), s.Live → s.ctrl.chans[ch]? = some c →
    ∃ t, exec (.csrRd ch w) s = .next t ∧ t.ctrl = s.ctrl ∧ s.Keeps t ∧ t.draws = s.draws ∧
      ∃ r, t.out.reply = some (.data r) ∧ r.toNat = c.csr.toNat % 2 ^ (8 * w.bytes) ∧
        (s.Wf → r &&& ~~~ csrImplemented s.cfg.layout = 0)

/-- 41_channel_registers.md R139: CNT.RD completes at every width: it answers the low bits of the elapsed count
`COR - remaining` of an enabled channel, of 0 for a disabled one, and changes no state. -/
def Obligations.CntReadCompletes : Prop :=
  ∀ (s : State) (ch : Nat) (w : Width) (c : Channel), s.Live → s.ctrl.chans[ch]? = some c →
    c.remaining ≤ c.cor →
    ∃ t, exec (.cntRd ch w) s = .next t ∧ t.ctrl = s.ctrl ∧ s.Keeps t ∧ t.draws = s.draws ∧
      ∃ r, t.out.reply = some (.data r) ∧
        r.toNat = (if s.ctrl.enabled ch then c.cor.toNat - c.remaining.toNat else 0) % 2 ^ (8 * w.bytes)

/-- 41_channel_registers.md R143: COR.RD completes at every width: it answers the low bits of COR, whatever the count,
and changes no state. -/
def Obligations.CorReadCompletes : Prop :=
  ∀ (s : State) (ch : Nat) (w : Width) (c : Channel), s.Live → s.ctrl.chans[ch]? = some c →
    ∃ t, exec (.corRd ch w) s = .next t ∧ t.ctrl = s.ctrl ∧ s.Keeps t ∧ t.draws = s.draws ∧
      ∃ r, t.out.reply = some (.data r) ∧ r.toNat = c.cor.toNat % 2 ^ (8 * w.bytes)

/-- 20_memory.md R60, first part: on a well-formed machine no read of an existing register changes any state element
or any line. -/
def Obligations.ReadsHaveNoSideEffect : Prop :=
  ∀ (s t : State) (i : Instr), s.Wf → i.wf s.cfg.channelCount → i.dir = .read → exec i s = .next t →
    t.ctrl = s.ctrl ∧ s.Keeps t ∧ t.draws = s.draws ∧ t.out.lineChanges = []

/-! ## Writes -/

/-- 20_memory.md R55: a read of width w answers the low `8*w` bits of what a 4-byte read of the same register answers at
that step, for each of the four reads. -/
def Obligations.NarrowReadIsLowBitsOfWordRead : Prop :=
  ∀ (s u : State) (ch : Nat) (w : Width) (full : Word) (rd : Width → Instr),
    rd ∈ [Instr.ssrRd, .csrRd ch, .cntRd ch, .corRd ch] →
    exec (rd .word) s = .next u → u.out.reply = some (.data full) →
    ∃ t r, exec (rd w) s = .next t ∧ t.out.reply = some (.data r) ∧ r.toNat = full.toNat % 2 ^ (8 * w.bytes)

/-- 20_memory.md R56: a write of width w is the 4-byte write of the merged value
`(full & ~mask(8*w)) | (v & mask(8*w))`, where `full` is what a 4-byte read of the same register answers at that step,
for each of the four registers; and for w = 4 the merged value is the data. -/
def Obligations.NarrowWriteIsWordWriteOfMergedValue : Prop :=
  ∀ (s u : State) (ch : Nat) (w : Width) (v full : Word),
    let mask : Word := BitVec.ofNat 32 (2 ^ (8 * w.bytes) - 1)
    let m := (full &&& ~~~ mask) ||| (v &&& mask)
    u.out.reply = some (.data full) →
    (exec (.ssrRd .word) s = .next u → exec (.ssrWr w v) s = exec (.ssrWr .word m) s) ∧
    (exec (.csrRd ch .word) s = .next u → exec (.csrWr ch w v) s = exec (.csrWr ch .word m) s) ∧
    (exec (.cntRd ch .word) s = .next u → exec (.cntWr ch w v) s = exec (.cntWr ch .word m) s) ∧
    (exec (.corRd ch .word) s = .next u → exec (.corWr ch w v) s = exec (.corWr ch .word m) s) ∧
    (w = .word → m = v)

/-- 30_encoding.md R71 (the data word's use): only the low `8*width` bits of the data of a write matter, for each of
the four writes. -/
def Obligations.WritesUseOnlyTheLowDataBits : Prop :=
  ∀ (s : State) (ch : Nat) (w : Width) (v v' : Word),
    v.toNat % 2 ^ (8 * w.bytes) = v'.toNat % 2 ^ (8 * w.bytes) →
    exec (.ssrWr w v) s = exec (.ssrWr w v') s ∧ exec (.csrWr ch w v) s = exec (.csrWr ch w v') s ∧
    exec (.cntWr ch w v) s = exec (.cntWr ch w v') s ∧ exec (.corWr ch w v) s = exec (.corWr ch w v') s

/-- 42_controller.md section 3: SSR.WR completes on a well-formed working machine. SSR becomes the merged value with bits
N..31 at 0; each channel whose bit rises resumes with a phase drawn in [0, div), each whose bit falls is paused with
phase 0, every other keeps its phase; CSR, COR and the decrementer of every channel are unchanged. The
model's choices: the drawn phase is a free value applied to the count of draws, which advances (log entry 5), and the
reply is `written` (log entry 10). -/
def Obligations.SsrWriteCompletes : Prop :=
  ∀ (s : State) (w : Width) (v : Word), s.Wf → s.Live →
    ∃ t, exec (.ssrWr w v) s = .next t ∧ s.Keeps t ∧ t.draws = s.draws + 1 ∧ t.out.reply = some .written ∧
      t.out.lineChanges = [] ∧ t.Live ∧
      (∀ j, t.ctrl.ssr.getLsbD j = (decide (j < s.cfg.channelCount) && (merge s.ctrl.ssr v w).getLsbD j)) ∧
      t.ctrl.chans.length = s.ctrl.chans.length ∧
      ∀ (i : Nat) (c : Channel), s.ctrl.chans[i]? = some c →
        ∃ c', t.ctrl.chans[i]? = some c' ∧ c'.csr = c.csr ∧ c'.cor = c.cor ∧ c'.remaining = c.remaining ∧
          (s.ctrl.enabled i = false → t.ctrl.enabled i = true →
            c'.psc = drawPhase s.draws i (c.div s.cfg.layout) ∧ c'.psc < c.div s.cfg.layout) ∧
          (s.ctrl.enabled i = true → t.ctrl.enabled i = false → c'.psc = 0) ∧
          (s.ctrl.enabled i = t.ctrl.enabled i → c'.psc = c.psc)

/-- 41_channel_registers.md section 2: CSR.WR completes. The flags follow the field algebra, CMR and CKS are the
merged value's, reserved bits are 0; an enabled channel's phase is drawn in [0, div(new CKS)), a disabled one's is 0;
COR, the decrementer, SSR and every other channel are unchanged. The model's choices: the drawn
phase is a free value applied to the count of draws, which advances (log entry 5), and the reply is `written` (log
entry 10). -/
def Obligations.CsrWriteCompletes : Prop :=
  ∀ (s : State) (ch : Nat) (w : Width) (v : Word) (c : Channel), s.cfg.wf → s.Live →
    s.ctrl.chans[ch]? = some c →
    let l := s.cfg.layout
    let m := CsrFields.ofWord l (merge c.csr v w)
    ∃ t c', exec (.csrWr ch w v) s = .next t ∧ s.Keeps t ∧ t.draws = s.draws + 1 ∧ t.out.reply = some .written ∧
      t.ctrl = { s.ctrl with chans := s.ctrl.chans.set ch c' } ∧
      c'.cor = c.cor ∧ c'.remaining = c.remaining ∧
      c'.csr &&& ~~~ csrImplemented l = 0 ∧
      c'.cmf l = (c.cmf l && m.cmf) ∧
      c'.ovf l = (if c.cmf l = true ∧ m.cmf = false then true else c.ovf l && m.ovf) ∧
      c'.cmr l = m.cmr ∧ c'.cks l = m.cks ∧
      c'.psc = (if s.ctrl.enabled ch then drawPhase s.draws ch (divisor m.cks) else 0) ∧
      c'.psc < divisor m.cks

/-- 41_channel_registers.md section 3: CNT.WR completes. The decrementer becomes `COR - m`, or COR where m is above it, for
m the data merged with the read value of CNT; the prescaler re-anchors at 0; CSR, COR, SSR and every other channel are
unchanged and no line changes. That the reply is
`written` is the model's choice (log entry 10). -/
def Obligations.CntWriteCompletes : Prop :=
  ∀ (s : State) (ch : Nat) (w : Width) (v : Word) (c : Channel), s.Live → s.ctrl.chans[ch]? = some c →
    let m := merge (if s.ctrl.enabled ch then c.cor - c.remaining else 0) v w
    ∃ t c', exec (.cntWr ch w v) s = .next t ∧ s.Keeps t ∧ t.draws = s.draws ∧ t.out.reply = some .written ∧
      t.ctrl = { s.ctrl with chans := s.ctrl.chans.set ch c' } ∧ t.out.lineChanges = [] ∧
      c'.csr = c.csr ∧ c'.cor = c.cor ∧ c'.psc = 0 ∧
      c'.remaining.toNat = (if c.cor.toNat < m.toNat then c.cor.toNat else c.cor.toNat - m.toNat)

/-- 41_channel_registers.md section 4: COR.WR completes. COR and the decrementer become the merged value and the prescaler
re-anchors at 0; CSR, SSR and every other channel are unchanged and no line changes. That the reply is
`written` is the model's choice (log entry 10). -/
def Obligations.CorWriteCompletes : Prop :=
  ∀ (s : State) (ch : Nat) (w : Width) (v : Word) (c : Channel), s.Live → s.ctrl.chans[ch]? = some c →
    ∃ t c', exec (.corWr ch w v) s = .next t ∧ s.Keeps t ∧ t.draws = s.draws ∧ t.out.reply = some .written ∧
      t.ctrl = { s.ctrl with chans := s.ctrl.chans.set ch c' } ∧ t.out.lineChanges = [] ∧
      c'.csr = c.csr ∧ c'.cor = merge c.cor v w ∧ c'.remaining = merge c.cor v w ∧ c'.psc = 0

/-- The model's reading (log entry 11) of 42_controller.md section 2: an operation on a channel that is not there
records ChannelOutOfRange with the register's offset, and changes nothing else of the controller. -/
def Obligations.MissingChannelFaults : Prop :=
  ∀ (s : State) (ch : Nat) (w : Width) (v : Word) (i : Instr), s.Live → s.ctrl.chans[ch]? = none →
    i ∈ [Instr.csrRd ch w, .csrWr ch w v, .cntRd ch w, .cntWr ch w v, .corRd ch w, .corWr ch w v] →
    ∃ t, exec i s = .next t ∧ s.Keeps t ∧ t.out.reply = none ∧
      t.ctrl = { s.ctrl with fault := some (.access .channelOutOfRange i.dir i.offset w.bytes) }

/-- The frame of the three channel writes together (41_channel_registers.md, the sections on CSR, CNT and COR): when
one answers a next state for an existing channel, SSR, the marks, the number of channels and every other channel are as
before; of its own channel CSR.WR leaves COR and the decrementer, CNT.WR leaves CSR and COR, COR.WR leaves CSR. -/
def Obligations.ChannelWriteFrame : Prop :=
  ∀ (s t : State) (ch : Nat) (w : Width) (v : Word) (i : Instr) (c : Channel),
    i ∈ [Instr.csrWr ch w v, .cntWr ch w v, .corWr ch w v] → s.ctrl.chans[ch]? = some c → exec i s = .next t →
    s.Keeps t ∧ t.ctrl.ssr = s.ctrl.ssr ∧ t.ctrl.fault = s.ctrl.fault ∧ t.ctrl.refused = s.ctrl.refused ∧
    t.ctrl.chans.length = s.ctrl.chans.length ∧
    (∀ j, j ≠ ch → t.ctrl.chans[j]? = s.ctrl.chans[j]?) ∧
    ∃ c', t.ctrl.chans[ch]? = some c' ∧
      (i = .csrWr ch w v → c'.cor = c.cor ∧ c'.remaining = c.remaining) ∧
      (i = .cntWr ch w v → c'.csr = c.csr ∧ c'.cor = c.cor) ∧
      (i = .corWr ch w v → c'.csr = c.csr)

/-- 41_channel_registers.md R141: the corner cases of a 4-byte CNT write on a well-formed machine: 0 reloads the
decrementer, a value above COR does the same, COR itself leaves 0, any other value m leaves `COR - m`; and where the
channel is enabled the next CNT read gives m, or 0 for an m above COR. -/
def Obligations.CntWriteCornerCases : Prop :=
  ∀ (s t : State) (ch : Nat) (m : Word) (c : Channel), s.Wf → s.ctrl.chans[ch]? = some c →
    exec (.cntWr ch .word m) s = .next t →
    ∃ c', t.ctrl.chans[ch]? = some c' ∧
      (m = 0 → c'.remaining = c.cor) ∧
      (m = c.cor → c'.remaining = 0) ∧
      (c.cor < m → c'.remaining = c.cor) ∧
      (m ≤ c.cor → c'.remaining.toNat = c.cor.toNat - m.toNat) ∧
      (s.ctrl.enabled ch = true →
        ∃ u, exec (.cntRd ch .word) t = .next u ∧ u.out.reply = some (.data (if c.cor < m then 0 else m)))

/-- 41_channel_registers.md, section 3 (the derived rule on narrow CNT writes): on a disabled channel a narrow CNT
write is the 4-byte write of the zero-extended low bits. -/
def Obligations.NarrowCntWriteOfDisabledChannel : Prop :=
  ∀ (s : State) (ch : Nat) (w : Width) (v : Word) (c : Channel), s.ctrl.chans[ch]? = some c →
    s.ctrl.enabled ch = false → exec (.cntWr ch w v) s = exec (.cntWr ch .word (narrowRead v w)) s

/-- 41_channel_registers.md, section 4 (the source's round trip): writing COR, at any width and in either enable state,
and then reading CNT gives 0, and reading COR gives the value written. -/
def Obligations.CorWriteThenReads : Prop :=
  ∀ (s t : State) (ch : Nat) (w : Width) (v : Word) (c : Channel), s.ctrl.chans[ch]? = some c →
    exec (.corWr ch w v) s = .next t →
    (∃ u, exec (.cntRd ch .word) t = .next u ∧ u.out.reply = some (.data 0)) ∧
    (∃ u, exec (.corRd ch .word) t = .next u ∧ u.out.reply = some (.data (merge c.cor v w)))

/-- 20_memory.md, section 2 (the derived sentences on idempotence): a second identical SSR or COR write leaves the
controller as the first left it, and so does a 4-byte CNT write. -/
def Obligations.WritesAreIdempotent : Prop :=
  ∀ (s t u : State) (ch : Nat) (w : Width) (v : Word) (i : Instr), s.Wf →
    i ∈ [Instr.ssrWr w v, .cntWr ch .word v, .corWr ch w v] → i.wf s.cfg.channelCount →
    exec i s = .next t → exec i t = .next u → u.ctrl = t.ctrl

/-- EXPECTED TO FAIL. The sentence of 20_memory.md section 2 that CNT writes are idempotent, read for narrow writes too:
it is false of the write rule of 41_channel_registers.md section 3 where a narrow write's merged value is above COR
(log entry 16). -/
def Obligations.NarrowCntWriteIsIdempotent : Prop :=
  ∀ (s t u : State) (ch : Nat) (w : Width) (v : Word), s.Wf → ch < s.cfg.channelCount →
    exec (.cntWr ch w v) s = .next t → exec (.cntWr ch w v) t = .next u → u.ctrl = t.ctrl

/-- 70_reset_and_hazards.md, section 3 (the two-write acknowledge): with CMF set, a 4-byte CSR write with 0 in both flag
positions leaves CMF 0, OVF 1 and the line deasserted, and the same write again leaves both 0. So a CSR write is not
idempotent. -/
def Obligations.AcknowledgeTakesTwoWrites : Prop :=
  ∀ (s : State) (ch : Nat) (v : Word) (c : Channel), s.cfg.wf → s.Live → s.ctrl.chans[ch]? = some c →
    let l := s.cfg.layout
    c.cmf l = true → (CsrFields.ofWord l v).cmf = false → (CsrFields.ofWord l v).ovf = false →
    ∃ t u c1 c2, exec (.csrWr ch .word v) s = .next t ∧ exec (.csrWr ch .word v) t = .next u ∧
      t.ctrl.chans[ch]? = some c1 ∧ c1.cmf l = false ∧ c1.ovf l = true ∧ t.ctrl.irq l ch = false ∧
      u.ctrl.chans[ch]? = some c2 ∧ c2.cmf l = false ∧ c2.ovf l = false ∧ u.ctrl.irq l ch = false

/-- 70_reset_and_hazards.md, section 3 (narrow CSR writes): under the default layout, which the spec takes from the
family (log entry 4), a 1-byte CSR write changes neither CMF nor OVF. -/
def Obligations.ByteCsrWriteKeepsFlags : Prop :=
  ∀ (s t : State) (ch : Nat) (v : Word) (c : Channel), s.cfg.wf → s.cfg.layout = defaultLayout →
    s.ctrl.chans[ch]? = some c → exec (.csrWr ch .byte v) s = .next t →
    ∃ c', t.ctrl.chans[ch]? = some c' ∧ c'.cmf defaultLayout = c.cmf defaultLayout ∧
      c'.ovf defaultLayout = c.ovf defaultLayout

/-- 42_controller.md, section 3 (narrow SSR writes): with at most 8 channels, as the default 5, an SSR write has the
same effect at every width. -/
def Obligations.SsrWriteWidthsAgree : Prop :=
  ∀ (s : State) (w : Width) (v : Word), s.Wf → s.cfg.channelCount ≤ 8 →
    exec (.ssrWr w v) s = exec (.ssrWr .word v) s

/-- 42_controller.md, section 3 (starting a stopped channel): a channel stopped with elapsed count K reads 0 while
stopped, and right after the SSR write that starts it reads K, its decrementer unchanged. -/
def Obligations.ResumeContinuesFromFrozenCount : Prop :=
  ∀ (s t : State) (ch : Nat) (v : Word) (c : Channel), s.Wf → s.ctrl.chans[ch]? = some c →
    s.ctrl.enabled ch = false → v.getLsbD ch = true → exec (.ssrWr .word v) s = .next t →
    (∃ u, exec (.cntRd ch .word) s = .next u ∧ u.out.reply = some (.data 0)) ∧
    (∃ u, exec (.cntRd ch .word) t = .next u ∧ u.out.reply = some (.data (c.cor - c.remaining))) ∧
    ∃ c', t.ctrl.chans[ch]? = some c' ∧ c'.remaining = c.remaining

/-! ## The base tick -/

/-- 00_scope.md R15: the divisor table, and the counting frequency `BASE_HZ / div(CKS)` it gives a channel. -/
def Obligations.DivisorTable : Prop :=
  divisor 0#2 = 8 ∧ divisor 1#2 = 32 ∧ divisor 2#2 = 128 ∧ divisor 3#2 = 1 ∧
  ∀ (cfg : Config) (c : Channel), c.rate cfg = (cfg.baseHz : Rat) / (divisor (c.cks cfg.layout) : Rat)

/-- 40_countdown_clock.md R104, R105, R106 and R107: a base tick that no channel refuses is a step. A disabled channel
is unchanged. An enabled one counts in its prescaler; where that wraps, a decrementer of 2 or more counts down by one,
to a value in [1, COR - 1], and one of 0 or 1 is a compare match, which reloads it from COR and sets CMF; OVF, CMR, CKS
and COR stay. SSR stays and nothing stops. A COR of 0 at a wrap is the refusal, and is stated by
`TickRefusesZeroLimit`. -/
def Obligations.TickCompletes : Prop :=
  ∀ (s : State) (rest : List Request), s.cfg.wf → s.Live → s.inbox = .tick :: rest →
    (∀ i, ¬ s.ctrl.TickRefusesAt s.cfg.layout i) →
    let l := s.cfg.layout
    ∃ t, step s = .next t ∧ t.cfg = s.cfg ∧ t.Live ∧ t.ctrl.ssr = s.ctrl.ssr ∧
      t.ctrl.chans.length = s.ctrl.chans.length ∧
      ∀ (i : Nat) (c : Channel), s.ctrl.chans[i]? = some c →
        ∃ c', t.ctrl.chans[i]? = some c' ∧
          (s.ctrl.enabled i = false → c' = c) ∧
          (s.ctrl.enabled i = true → c.psc + 1 < c.div l → c' = { c with psc := c.psc + 1 }) ∧
          (s.ctrl.enabled i = true → ¬ c.psc + 1 < c.div l → 2 ≤ c.remaining.toNat →
            c' = { c with psc := 0, remaining := c.remaining - 1 } ∧
              (c.remaining ≤ c.cor → 1 ≤ c'.remaining.toNat ∧ c'.remaining.toNat ≤ c.cor.toNat - 1)) ∧
          (s.ctrl.enabled i = true → ¬ c.psc + 1 < c.div l → ¬ 2 ≤ c.remaining.toNat →
            c'.psc = 0 ∧ c'.cor = c.cor ∧ c'.remaining = c.cor ∧ c'.cmf l = true ∧ c'.ovf l = c.ovf l ∧
            c'.cmr l = c.cmr l ∧ c'.cks l = c.cks l ∧
            (c.csr &&& ~~~ csrImplemented l = 0 → c'.csr &&& ~~~ csrImplemented l = 0))

/-- 40_countdown_clock.md R109: a base tick records the refusal ZeroLimitRunning exactly when the prescaler of some
enabled channel with COR 0 wraps on it; that nothing else of the controller changes on that tick is the model's choice
(log entry 8). -/
def Obligations.TickRefusesZeroLimit : Prop :=
  ∀ (s : State) (rest : List Request), s.Live → s.inbox = .tick :: rest →
    ((∃ i, s.ctrl.TickRefusesAt s.cfg.layout i) ↔
      ∃ t, step s = .next t ∧ t.ctrl = { s.ctrl with refused := some .zeroLimitRunning })

/-- 40_countdown_clock.md R117: a disabled channel ignores base ticks, in every step they make, refused ones
included. -/
def Obligations.DisabledChannelIgnoresTick : Prop :=
  ∀ (s t : State) (rest : List Request) (i : Nat), s.inbox = .tick :: rest → s.ctrl.enabled i = false →
    step s = .next t → t.ctrl.chans[i]? = s.ctrl.chans[i]?

/-- 40_countdown_clock.md R118: no channel's counting depends on another's. Two machines with the same layout that
agree on a channel and on its enable bit agree on it after a base tick that neither refuses. -/
def Obligations.TickChannelsAreIndependent : Prop :=
  ∀ (s1 s2 t1 t2 : State) (rest1 rest2 : List Request) (i : Nat), s1.cfg.layout = s2.cfg.layout →
    s1.inbox = .tick :: rest1 → s2.inbox = .tick :: rest2 →
    s1.ctrl.enabled i = s2.ctrl.enabled i → s1.ctrl.chans[i]? = s2.ctrl.chans[i]? →
    step s1 = .next t1 → step s2 = .next t2 → t1.ctrl.refused = none → t2.ctrl.refused = none →
    t1.ctrl.chans[i]? = t2.ctrl.chans[i]?

/-- 40_countdown_clock.md, section 4 (time to the next compare match): for an enabled channel with COR above 0,
decrementer r and prescaler p, while only base ticks come and no other enabled channel has COR 0, the next compare match
is on base tick number `max(r, 1) * d - p`: before it CSR, COR and SSR stand and the time left counts down by one a
tick; on it the decrementer is reloaded and CMF set; and the time to the one after is the full period `COR * d`. -/
def Obligations.CompareMatchTiming : Prop :=
  ∀ (s : State) (i : Nat) (c : Channel) (rest : List Request), s.Wf → s.Live →
    s.ctrl.enabled i = true → s.ctrl.chans[i]? = some c → s.ctrl.NoZeroLimitRunning →
    let l := s.cfg.layout
    s.inbox = List.replicate (c.ticksToMatch l) .tick ++ rest →
    (∀ k, k < c.ticksToMatch l → ∃ t c', core.run k s = .next t ∧ t.ctrl.chans[i]? = some c' ∧
      c'.csr = c.csr ∧ c'.cor = c.cor ∧ t.ctrl.ssr = s.ctrl.ssr ∧ c'.ticksToMatch l = c.ticksToMatch l - k) ∧
    (∃ t c', core.run (c.ticksToMatch l) s = .next t ∧ t.ctrl.chans[i]? = some c' ∧
      c'.cmf l = true ∧ c'.remaining = c.cor ∧ c'.cor = c.cor ∧ c'.psc = 0 ∧ t.ctrl.ssr = s.ctrl.ssr ∧
      c'.ticksToMatch l = c.periodTicks l)

/-- 40_countdown_clock.md, sections 1 and 4 (counting rate): an enabled channel with phase 0 has, after `n * div(CKS)`
base ticks for an n below its decrementer r, the decrementer `r - n` and phase 0 again, while no enabled channel has
COR 0. -/
def Obligations.CountingRate : Prop :=
  ∀ (s : State) (i n : Nat) (c : Channel) (rest : List Request), s.Wf → s.Live →
    s.ctrl.enabled i = true → s.ctrl.chans[i]? = some c → s.ctrl.NoZeroLimitRunning →
    c.psc = 0 → n < c.remaining.toNat →
    s.inbox = List.replicate (n * c.div s.cfg.layout) .tick ++ rest →
    ∃ t c', core.run (n * c.div s.cfg.layout) s = .next t ∧ t.ctrl.chans[i]? = some c' ∧
      c'.remaining.toNat = c.remaining.toNat - n ∧ c'.psc = 0 ∧ c'.csr = c.csr ∧ c'.cor = c.cor

/-! ## The interrupt lines and the flags -/

/-- 10_state.md R36: the level of a line is a function of its channel's CSR alone, asserted exactly when CMF is 1 and
CMR is not 0, each of 1, 2 and 3 alike. -/
def Obligations.InterruptLevel : Prop :=
  ∀ (l : CsrLayout) (k : Controller) (i : Nat) (c : Channel), k.chans[i]? = some c →
    (k.irq l i = true ↔ c.cmf l = true ∧ c.cmr l ≠ 0) ∧
    ∀ c2 : Channel, c2.csr = c.csr → c2.irq l = k.irq l i

/-- 60_exceptions.md R208: the channels a step reports as changed are exactly those whose line level it changed. -/
def Obligations.LineChangesReported : Prop :=
  ∀ s t : State, s.Wf → step s = .next t →
    ∀ i, i ∈ t.out.lineChanges ↔ s.ctrl.irq s.cfg.layout i ≠ t.ctrl.irq t.cfg.layout i

/-- 41_channel_registers.md R146: the only steps that change a line are a CSR write of its channel, a compare match of
its channel, and a reset. -/
def Obligations.OnlyCsrWriteMatchOrResetChangesALine : Prop :=
  ∀ (s t : State) (i : Nat), s.Wf → step s = .next t →
    s.ctrl.irq s.cfg.layout i ≠ t.ctrl.irq t.cfg.layout i →
    s.takeRequest.1 = .reset ∨
    (∃ a w v, s.takeRequest.1 = .access a ∧ decode s.cfg.channelCount a = .ok (.csrWr i w v)) ∨
    (s.takeRequest.1 = .tick ∧ ∃ c, s.ctrl.chans[i]? = some c ∧ s.ctrl.enabled i = true ∧
      ¬ c.psc + 1 < c.div s.cfg.layout ∧ c.remaining.toNat ≤ 1 ∧ c.cmf s.cfg.layout = false)

/-- 10_state.md R28: CMF goes from 0 to 1 only by a compare match on a base tick, and from 1 to 0 only by a CSR write of
its channel with 0 in the CMF position, or by a reset. -/
def Obligations.CompareMatchFlagChanges : Prop :=
  ∀ (s t : State) (i : Nat) (c c' : Channel), s.Wf → step s = .next t →
    s.ctrl.chans[i]? = some c → t.ctrl.chans[i]? = some c' →
    let l := s.cfg.layout
    (c.cmf l = false → c'.cmf l = true → s.takeRequest.1 = .tick ∧ s.ctrl.enabled i = true ∧
      ¬ c.psc + 1 < c.div l ∧ c.remaining.toNat ≤ 1) ∧
    (c.cmf l = true → c'.cmf l = false → s.takeRequest.1 = .reset ∨
      ∃ a w v, s.takeRequest.1 = .access a ∧ decode s.cfg.channelCount a = .ok (.csrWr i w v) ∧
        (CsrFields.ofWord l (merge c.csr v w)).cmf = false)

/-- 10_state.md R29: OVF goes from 0 to 1 only by a CSR write of its channel that clears a CMF that was 1, and from 1 to
0 only by a CSR write with 0 in the OVF position that does not clear CMF, or by a reset; no base tick changes it. -/
def Obligations.OverflowFlagChanges : Prop :=
  ∀ (s t : State) (i : Nat) (c c' : Channel), s.Wf → step s = .next t →
    s.ctrl.chans[i]? = some c → t.ctrl.chans[i]? = some c' →
    let l := s.cfg.layout
    (c.ovf l = false → c'.ovf l = true →
      ∃ a w v, s.takeRequest.1 = .access a ∧ decode s.cfg.channelCount a = .ok (.csrWr i w v) ∧
        c.cmf l = true ∧ (CsrFields.ofWord l (merge c.csr v w)).cmf = false) ∧
    (c.ovf l = true → c'.ovf l = false → s.takeRequest.1 = .reset ∨
      ∃ a w v, s.takeRequest.1 = .access a ∧ decode s.cfg.channelCount a = .ok (.csrWr i w v) ∧
        (CsrFields.ofWord l (merge c.csr v w)).ovf = false ∧
        ¬ (c.cmf l = true ∧ (CsrFields.ofWord l (merge c.csr v w)).cmf = false))

/-- 42_controller.md R177: a channel's enabled state changes only in the step of an SSR write, or in a reset; no
compare match and no fault disables a channel. -/
def Obligations.EnableChangesOnlyBySsrWrite : Prop :=
  ∀ (s t : State) (i : Nat), step s = .next t → s.ctrl.enabled i ≠ t.ctrl.enabled i →
    s.takeRequest.1 = .reset ∨
    ∃ a w v, s.takeRequest.1 = .access a ∧ decode s.cfg.channelCount a = .ok (.ssrWr w v)

/-- 10_state.md R32: COR changes only by a COR write of its channel, or in a reset. -/
def Obligations.CompareRegisterChangesOnlyByCorWrite : Prop :=
  ∀ (s t : State) (i : Nat) (c c' : Channel), step s = .next t →
    s.ctrl.chans[i]? = some c → t.ctrl.chans[i]? = some c' → c'.cor ≠ c.cor →
    s.takeRequest.1 = .reset ∨
    ∃ a w v, s.takeRequest.1 = .access a ∧ decode s.cfg.channelCount a = .ok (.corWr i w v)

/-! ## Save and restore, safe runs -/

/-- 10_state.md R38: the registers saved determine the controller apart from the prescaler phases: restoring what was
saved of a well-formed working machine leaves a well-formed machine with the same SSR, and each channel's CSR, COR and
decrementer, and saving it again gives the same record. -/
def Obligations.SaveRestoreKeepsTheController : Prop :=
  ∀ s : State, s.Wf → s.Live →
    let t := s.restore s.ctrl.save
    t.Wf ∧ t.Live ∧ t.ctrl.ssr = s.ctrl.ssr ∧ t.ctrl.save = s.ctrl.save ∧
    ∀ (i : Nat) (c : Channel), s.ctrl.chans[i]? = some c → ∃ c', t.ctrl.chans[i]? = some c' ∧
      c'.csr = c.csr ∧ c'.cor = c.cor ∧ c'.remaining = c.remaining

/-- 70_reset_and_hazards.md section 3 and 60_exceptions.md section 1: on a well-formed working machine every access on the
register map is answered, with no fault and no refusal, and every other access stops the whole controller with a fault:
after it no operation, no access and no base tick is a step. That the stopped controller's answer to each is the outcome
`fault (halted ..)` with the recorded fault is the model's choice (log entry 7). -/
def Obligations.AccessFaultsExactlyOffTheMap : Prop :=
  ∀ (s : State) (a : Access) (rest : List Request), s.Wf → s.Live → s.inbox = .access a :: rest →
    ∃ t, step s = .next t ∧ t.ctrl.refused = none ∧ (t.ctrl.fault = none ↔ a.OnMap s.cfg.channelCount) ∧
      (t.out.reply ≠ none ↔ a.OnMap s.cfg.channelCount) ∧
      (¬ a.OnMap s.cfg.channelCount → ∃ f, t.ctrl.fault = some f ∧ tickEvent t = .fault (.halted f) ∧
        (∀ a', accessEvent a' t = .fault (.halted f)) ∧ ∀ i, exec i t = .fault (.halted f))

/-- 70_reset_and_hazards.md, section 3 (R247 and R248 as one safety claim): from a well-formed working machine in which
no channel, enabled or not, has COR 0, any requests that keep to the register map and write no COR but whole and with a
value other than 0 run to the end without a fault or a refusal, base ticks and resets among them in any order. -/
def Obligations.BenignRequestsRunSafely : Prop :=
  ∀ (s : State) (rs rest : List Request), s.Wf → s.Live → (∀ c ∈ s.ctrl.chans, c.cor ≠ 0) →
    s.inbox = rs ++ rest → (∀ r ∈ rs, BenignRequest s.cfg.channelCount r) →
    SafeRun rs.length s

/-! ## What a tick and a reset leave besides the controller -/

/-- 20_memory.md section 4 and 42_controller.md section 1: a base tick and a reset, in every step they make, change no
parameter. The model's choices: they take their request and keep the requests after it and the counters of the free
values (log entries 5 and 6), and answer nothing (log entry 10). -/
def Obligations.TickAndResetKeepTheEnvironment : Prop :=
  ∀ (s t : State) (r : Request) (rest : List Request), r = .tick ∨ r = .reset → s.inbox = r :: rest →
    step s = .next t →
    t.cfg = s.cfg ∧ t.inbox = rest ∧ t.envSeq = s.envSeq ∧ t.draws = s.draws ∧ t.out.reply = none
end

