-- ==== Sys2Proof/Laws/Decode.lean ====
section
/-! SUPPORT. The small lemmas of the decoder and the descriptor (42_controller.md R173, 30_encoding.md R71). -/

namespace Sys2Proof

/-- The widths a number of bytes can stand for (20_memory.md R53). -/
theorem Width.ofBytes_eq_some {n : Nat} {w : Width} : Width.ofBytes n = some w ↔ n = w.bytes := by
  unfold Width.ofBytes
  cases w <;> simp only [Width.bytes] <;> split_ifs <;> simp_all

/-- The numbers of bytes no register takes (20_memory.md R53). -/
theorem Width.ofBytes_eq_none {n : Nat} : Width.ofBytes n = none ↔ n ≠ 1 ∧ n ≠ 2 ∧ n ≠ 4 := by
  unfold Width.ofBytes
  split_ifs <;> simp_all

/-- The register at an offset of a channel group (20_memory.md R51). -/
theorem Slot.ofOffset_eq_some {n : Nat} {s : Slot} : Slot.ofOffset n = some s ↔ n = s.offset := by
  unfold Slot.ofOffset
  cases s <;> simp only [Slot.offset] <;> split_ifs <;> simp_all

/-- The offsets of a channel group where no register is (42_controller.md R173). -/
theorem Slot.ofOffset_eq_none {n : Nat} : Slot.ofOffset n = none ↔ n ≠ 0x0 ∧ n ≠ 0x4 ∧ n ≠ 0x8 := by
  unfold Slot.ofOffset
  split_ifs <;> simp_all

/-- A channel register's offset gives its channel index back. -/
theorem channelOffset_index (ch : Nat) (s : Slot) : channelOffset ch s / 0x10 - 1 = ch := by
  cases s <;> simp only [channelOffset, Slot.offset] <;> omega

/-- A channel register's offset gives its offset within the group back. -/
theorem channelOffset_slot (ch : Nat) (s : Slot) : channelOffset ch s % 0x10 = s.offset := by
  cases s <;> simp only [channelOffset, Slot.offset] <;> omega

/-- A channel register lies above the shared group. -/
theorem channelOffset_ge (ch : Nat) (s : Slot) : 0x10 ≤ channelOffset ch s := by
  simp only [channelOffset]; omega

/-- Field D of a descriptor is the direction it was made from (30_encoding.md R71). -/
@[simp] theorem descriptorDir_descriptorOf (dir : Dir) (w : Width) (off : Nat) :
    descriptorDir (descriptorOf dir w off) = dir := by
  unfold descriptorDir descriptorOf
  rw [BitVec.getLsbD_append]
  cases dir <;> simp [Dir.bit]

/-- The size code of a descriptor is that of the width it was made from (30_encoding.md R72). -/
@[simp] theorem descriptorWidth_descriptorOf (dir : Dir) (w : Width) (off : Nat) :
    descriptorWidth (descriptorOf dir w off) = w.bytes := by
  have h : (descriptorOf dir w off).extractLsb' 13 2 = w.sizeCode := by
    apply BitVec.eq_of_getLsbD_eq
    intro j hj
    rw [BitVec.getLsbD_extractLsb', descriptorOf, BitVec.getLsbD_append, BitVec.getLsbD_append]
    have h1 : 13 + j < 2 + 13 := by omega
    have h2 : ¬ 13 + j < 13 := by omega
    simp [h1, hj]
  rw [descriptorWidth, h]
  cases w <;> rfl

/-- The offset of a descriptor is the one it was made from, where a descriptor can hold it (30_encoding.md R71). -/
theorem descriptorOffset_descriptorOf (dir : Dir) (w : Width) {off : Nat} (h : off < 0x2000) :
    descriptorOffset (descriptorOf dir w off) = off := by
  have h0 : (descriptorOf dir w off).extractLsb' 0 13 = BitVec.ofNat 13 off := by
    apply BitVec.eq_of_getLsbD_eq
    intro j hj
    rw [BitVec.getLsbD_extractLsb', descriptorOf, BitVec.getLsbD_append, BitVec.getLsbD_append]
    have h1 : j < 2 + 13 := by omega
    simp [h1, hj]
  rw [descriptorOffset, h0, BitVec.toNat_ofNat]
  exact Nat.mod_eq_of_lt h

/-- What the decoder can answer for an access it accepts (42_controller.md R173): the shared register at offset 0, or a
register of a channel below `n` at its own offset. -/
theorem decode_eq_ok {n : Nat} {a : Access} {i : Instr} :
    decode n a = .ok i ↔
      ∃ w : Width, a.width = w.bytes ∧
        ((a.offset = 0 ∧ i = sharedOp a.dir w a.data) ∨
         (∃ ch s, ch < n ∧ a.offset = channelOffset ch s ∧ i = channelOp a.dir ch s w a.data)) := by
  constructor
  · intro h
    unfold decode at h
    split at h
    · cases h
    · rename_i w hw
      refine ⟨w, Width.ofBytes_eq_some.1 hw, ?_⟩
      split_ifs at h with h0 h1 h2
      · cases h; exact .inl ⟨h0, rfl⟩
      · split at h
        · cases h
        · rename_i s hs
          cases h
          refine .inr ⟨a.offset / 0x10 - 1, s, by omega, ?_, rfl⟩
          have := Slot.ofOffset_eq_some.1 hs
          simp only [channelOffset]
          omega
  · rintro ⟨w, hw, ⟨h0, rfl⟩ | ⟨ch, s, hch, ho, rfl⟩⟩
    · rw [decode, Width.ofBytes_eq_some.2 hw]
      simp [h0]
    · have h1 := channelOffset_ge ch s
      rw [decode, Width.ofBytes_eq_some.2 hw, ho, channelOffset_index, channelOffset_slot,
        Slot.ofOffset_eq_some.2 rfl]
      have h2 : ¬ channelOffset ch s = 0 := by omega
      have h3 : ¬ channelOffset ch s < 0x10 := by omega
      simp [h2, h3, hch]

end Sys2Proof
end

