-- ==== Sys2Proof/Laws/State.lean ====
section
/-! SUPPORT. One lemma per field per update of the state, so that no later proof unfolds a record update. -/

namespace Sys2Proof.Machine

section Commit
variable (s : State) (k : Controller) (r : Option Reply)

@[simp] theorem State.commit_cfg : (s.commit k r).cfg = s.cfg := rfl
@[simp] theorem State.commit_ctrl : (s.commit k r).ctrl = k := rfl
@[simp] theorem State.commit_inbox : (s.commit k r).inbox = s.inbox := rfl
@[simp] theorem State.commit_envSeq : (s.commit k r).envSeq = s.envSeq := rfl
@[simp] theorem State.commit_draws : (s.commit k r).draws = s.draws := rfl
@[simp] theorem State.commit_reply : (s.commit k r).out.reply = r := rfl
@[simp] theorem State.commit_lineChanges :
    (s.commit k r).out.lineChanges = changedLines s.cfg.channelCount s.cfg.layout s.ctrl k := rfl

end Commit

section Answer
variable (s : State) (full : Word) (w : Width)

@[simp] theorem State.answer_cfg : (s.answer full w).cfg = s.cfg := rfl
@[simp] theorem State.answer_ctrl : (s.answer full w).ctrl = s.ctrl := rfl
@[simp] theorem State.answer_inbox : (s.answer full w).inbox = s.inbox := rfl
@[simp] theorem State.answer_envSeq : (s.answer full w).envSeq = s.envSeq := rfl
@[simp] theorem State.answer_draws : (s.answer full w).draws = s.draws := rfl
@[simp] theorem State.answer_reply : (s.answer full w).out.reply = some (.data (narrowRead full w)) := rfl

end Answer

section WriteChannel
variable (s : State) (ch : Nat) (c : Channel)

@[simp] theorem State.writeChannel_cfg : (s.writeChannel ch c).cfg = s.cfg := rfl
@[simp] theorem State.writeChannel_ctrl : (s.writeChannel ch c).ctrl = s.ctrl.setChannel ch c := rfl
@[simp] theorem State.writeChannel_inbox : (s.writeChannel ch c).inbox = s.inbox := rfl
@[simp] theorem State.writeChannel_envSeq : (s.writeChannel ch c).envSeq = s.envSeq := rfl
@[simp] theorem State.writeChannel_draws : (s.writeChannel ch c).draws = s.draws := rfl
@[simp] theorem State.writeChannel_reply : (s.writeChannel ch c).out.reply = some .written := rfl

end WriteChannel

section Marks
variable (s : State) (f : FaultRecord) (why : RefusalReason)

@[simp] theorem State.takeFault_cfg : (s.takeFault f).cfg = s.cfg := rfl
@[simp] theorem State.takeFault_ctrl : (s.takeFault f).ctrl = { s.ctrl with fault := some f } := rfl
@[simp] theorem State.takeFault_inbox : (s.takeFault f).inbox = s.inbox := rfl
@[simp] theorem State.takeFault_envSeq : (s.takeFault f).envSeq = s.envSeq := rfl
@[simp] theorem State.takeFault_draws : (s.takeFault f).draws = s.draws := rfl
@[simp] theorem State.takeFault_reply : (s.takeFault f).out.reply = none := rfl
@[simp] theorem State.takeRefusal_cfg : (s.takeRefusal why).cfg = s.cfg := rfl
@[simp] theorem State.takeRefusal_ctrl : (s.takeRefusal why).ctrl = { s.ctrl with refused := some why } := rfl
@[simp] theorem State.takeRefusal_inbox : (s.takeRefusal why).inbox = s.inbox := rfl
@[simp] theorem State.takeRefusal_envSeq : (s.takeRefusal why).envSeq = s.envSeq := rfl
@[simp] theorem State.takeRefusal_draws : (s.takeRefusal why).draws = s.draws := rfl
@[simp] theorem State.takeRefusal_reply : (s.takeRefusal why).out.reply = none := rfl

end Marks

section Requests
variable (s : State) (rs : List Request)

@[simp] theorem State.nextDraw_cfg : s.nextDraw.cfg = s.cfg := rfl
@[simp] theorem State.nextDraw_ctrl : s.nextDraw.ctrl = s.ctrl := rfl
@[simp] theorem State.nextDraw_inbox : s.nextDraw.inbox = s.inbox := rfl
@[simp] theorem State.nextDraw_envSeq : s.nextDraw.envSeq = s.envSeq := rfl
@[simp] theorem State.nextDraw_draws : s.nextDraw.draws = s.draws + 1 := rfl
@[simp] theorem State.nextDraw_out : s.nextDraw.out = s.out := rfl
@[simp] theorem State.place_cfg : (s.place rs).cfg = s.cfg := rfl
@[simp] theorem State.place_ctrl : (s.place rs).ctrl = s.ctrl := rfl
@[simp] theorem State.place_inbox : (s.place rs).inbox = rs ++ s.inbox := rfl
@[simp] theorem State.place_envSeq : (s.place rs).envSeq = s.envSeq := rfl
@[simp] theorem State.place_draws : (s.place rs).draws = s.draws := rfl
@[simp] theorem State.place_out : (s.place rs).out = s.out := rfl

end Requests

section SetChannel
variable (k : Controller) (ch : Nat) (c : Channel)

@[simp] theorem Controller.setChannel_ssr : (k.setChannel ch c).ssr = k.ssr := rfl
@[simp] theorem Controller.setChannel_chans : (k.setChannel ch c).chans = k.chans.set ch c := rfl
@[simp] theorem Controller.setChannel_fault : (k.setChannel ch c).fault = k.fault := rfl
@[simp] theorem Controller.setChannel_refused : (k.setChannel ch c).refused = k.refused := rfl
@[simp] theorem Controller.setChannel_enabled (i : Nat) : (k.setChannel ch c).enabled i = k.enabled i := rfl

end SetChannel

section WriteSsr
variable (n : Nat) (l : CsrLayout) (seq : Nat) (k : Controller) (m : Word)

@[simp] theorem Controller.writeSsr_ssr : (k.writeSsr n l seq m).ssr = m &&& lowMask n := rfl
@[simp] theorem Controller.writeSsr_chans :
    (k.writeSsr n l seq m).chans = k.chans.mapIdx (ssrTransition l seq k.ssr m) := rfl
@[simp] theorem Controller.writeSsr_fault : (k.writeSsr n l seq m).fault = k.fault := rfl
@[simp] theorem Controller.writeSsr_refused : (k.writeSsr n l seq m).refused = k.refused := rfl

end WriteSsr

section ChannelUpdates
variable (l : CsrLayout) (seq i : Nat) (en : Bool) (c : Channel) (m : Word)

@[simp] theorem Channel.setCount_csr : (c.setCount m).csr = c.csr := rfl
@[simp] theorem Channel.setCount_cor : (c.setCount m).cor = c.cor := rfl
@[simp] theorem Channel.setCount_remaining :
    (c.setCount m).remaining = if c.cor < m then c.cor else c.cor - m := rfl
@[simp] theorem Channel.setCount_psc : (c.setCount m).psc = 0 := rfl
@[simp] theorem Channel.setLimit_csr : (c.setLimit m).csr = c.csr := rfl
@[simp] theorem Channel.setLimit_cor : (c.setLimit m).cor = m := rfl
@[simp] theorem Channel.setLimit_remaining : (c.setLimit m).remaining = m := rfl
@[simp] theorem Channel.setLimit_psc : (c.setLimit m).psc = 0 := rfl
@[simp] theorem Channel.resume_csr : (c.resume l seq i).csr = c.csr := rfl
@[simp] theorem Channel.resume_cor : (c.resume l seq i).cor = c.cor := rfl
@[simp] theorem Channel.resume_remaining : (c.resume l seq i).remaining = c.remaining := rfl
@[simp] theorem Channel.resume_psc : (c.resume l seq i).psc = drawPhase seq i (c.div l) := rfl
@[simp] theorem Channel.pause_csr : c.pause.csr = c.csr := rfl
@[simp] theorem Channel.pause_cor : c.pause.cor = c.cor := rfl
@[simp] theorem Channel.pause_remaining : c.pause.remaining = c.remaining := rfl
@[simp] theorem Channel.pause_psc : c.pause.psc = 0 := rfl
@[simp] theorem Channel.setCsr_csr : (c.setCsr l seq i en m).csr = m := rfl
@[simp] theorem Channel.setCsr_cor : (c.setCsr l seq i en m).cor = c.cor := rfl
@[simp] theorem Channel.setCsr_remaining : (c.setCsr l seq i en m).remaining = c.remaining := rfl
@[simp] theorem Channel.setCsr_psc :
    (c.setCsr l seq i en m).psc =
      if en then drawPhase seq i (divisor (CsrFields.ofWord l m).cks) else 0 := rfl
@[simp] theorem Channel.compareMatch_csr : (c.compareMatch l).csr = c.csr ||| cmfBit l := rfl
@[simp] theorem Channel.compareMatch_cor : (c.compareMatch l).cor = c.cor := rfl
@[simp] theorem Channel.compareMatch_remaining : (c.compareMatch l).remaining = c.cor := rfl
@[simp] theorem Channel.compareMatch_psc : (c.compareMatch l).psc = c.psc := rfl

end ChannelUpdates

/-- The level of a line is that of its channel (10_state.md R36). -/
theorem Controller.irq_of_getElem? {l : CsrLayout} {k : Controller} {i : Nat} {c : Channel}
    (h : k.chans[i]? = some c) : k.irq l i = c.irq l := by
  simp [Controller.irq, h]

end Sys2Proof.Machine
end

