-- ==== Sys2Proof/Laws/Fields.lean ====
section
/-! SUPPORT. What the field, width and mask operations do, bit by bit: the lemmas that let a proof read a field of a
written word without unfolding the layout. -/

namespace Sys2Proof.Machine

/-- A bit of `mask(n)`. -/
theorem lowMask_getLsbD {n j : Nat} (hn : n ≤ 32) : (lowMask n).getLsbD j = decide (j < n) := by
  unfold lowMask
  rw [BitVec.getLsbD_ofNat, Nat.testBit_two_pow_sub_one]
  by_cases h : j < n <;> simp [h]
  omega

/-- The width of an access in bits is at most the register's. -/
theorem Width.bits_le (w : Width) : 8 * w.bytes ≤ 32 := by cases w <;> decide

/-- A bit of the value a read of width `w` returns (20_memory.md R55). -/
theorem narrowRead_getLsbD (full : Word) (w : Width) (j : Nat) :
    (narrowRead full w).getLsbD j = (full.getLsbD j && decide (j < 8 * w.bytes)) := by
  rw [narrowRead, BitVec.getLsbD_and, lowMask_getLsbD (Width.bits_le w)]

/-- The value a read of width `w` returns, as a number: the register's value modulo 2^(8*w) (20_memory.md R55). -/
theorem narrowRead_toNat (full : Word) (w : Width) :
    (narrowRead full w).toNat = full.toNat % 2 ^ (8 * w.bytes) := by
  have h : 2 ^ (8 * w.bytes) - 1 < 2 ^ 32 := by cases w <;> decide
  rw [narrowRead, lowMask, BitVec.toNat_and, BitVec.toNat_ofNat, Nat.mod_eq_of_lt h, Nat.and_two_pow_sub_one_eq_mod]

/-- A bit of the merged value: the data's below the width, the register's from there on (20_memory.md R56). -/
theorem merge_getLsbD (full v : Word) (w : Width) (j : Nat) :
    (merge full v w).getLsbD j = if j < 8 * w.bytes then v.getLsbD j else full.getLsbD j := by
  have hw := Width.bits_le w
  cases w with
  | word =>
    by_cases h : j < 32
    · simp [merge, Width.bytes, h]
    · simp [merge, Width.bytes, h, BitVec.getLsbD_of_ge v j (by omega), BitVec.getLsbD_of_ge full j (by omega)]
  | byte =>
    simp only [merge, BitVec.getLsbD_or, BitVec.getLsbD_and, BitVec.getLsbD_not, lowMask_getLsbD hw]
    by_cases h : j < 8 * Width.byte.bytes
    · simp [h]
    · by_cases h32 : j < 32
      · simp [h, h32]
      · simp [h, h32, BitVec.getLsbD_of_ge full j (by omega)]
  | half =>
    simp only [merge, BitVec.getLsbD_or, BitVec.getLsbD_and, BitVec.getLsbD_not, lowMask_getLsbD hw]
    by_cases h : j < 8 * Width.half.bytes
    · simp [h]
    · by_cases h32 : j < 32
      · simp [h, h32]
      · simp [h, h32, BitVec.getLsbD_of_ge full j (by omega)]

/-- A 4-byte write takes the data whole (20_memory.md R56). -/
@[simp] theorem merge_word (full v : Word) : merge full v .word = v := rfl

/-- The data's bits above the access are not used (30_encoding.md R71). -/
theorem merge_narrowRead (full v : Word) (w : Width) : merge full (narrowRead v w) w = merge full v w := by
  apply BitVec.eq_of_getLsbD_eq
  intro j _
  rw [merge_getLsbD, merge_getLsbD, narrowRead_getLsbD]
  by_cases h : j < 8 * w.bytes <;> simp [h]

/-- A bit of the CSR word with given fields (10_state.md R26, R27). -/
theorem CsrFields.toWord_getLsbD {l : CsrLayout} (h : l.wf) (f : CsrFields) (j : Nat) :
    (f.toWord l).getLsbD j =
      ((decide (j = l.cmf) && f.cmf) || (decide (j = l.ovf) && f.ovf) ||
       ((decide (j = l.cmr) && f.cmr.getLsbD 0) || (decide (j = l.cmr + 1) && f.cmr.getLsbD 1)) ||
       ((decide (j = l.cks) && f.cks.getLsbD 0) || (decide (j = l.cks + 1) && f.cks.getLsbD 1))) := by
  obtain ⟨hb, -⟩ := h
  simp only [CsrLayout.bits, List.mem_cons, List.not_mem_nil, or_false, forall_eq_or_imp, forall_eq] at hb
  obtain ⟨h1, h2, h3, h4, h5, h6⟩ := hb
  have one (b : Bool) (p : Nat) (hp : p < 32) :
      ((BitVec.ofBool b).setWidth 32 <<< p).getLsbD j = (decide (j = p) && b) := by
    rw [BitVec.getLsbD_shiftLeft, BitVec.getLsbD_setWidth, BitVec.getLsbD_ofBool]
    by_cases hj : j = p
    · subst hj; simp [hp]
    · by_cases hlt : j < p
      · simp [hj, hlt]
      · have : j - p ≠ 0 := by omega
        simp [hj, this]
  have two (x : BitVec 2) (p : Nat) (hp : p + 1 < 32) :
      (x.setWidth 32 <<< p).getLsbD j =
        ((decide (j = p) && x.getLsbD 0) || (decide (j = p + 1) && x.getLsbD 1)) := by
    rw [BitVec.getLsbD_shiftLeft, BitVec.getLsbD_setWidth]
    by_cases hj : j = p
    · subst hj
      have : j < 32 := by omega
      simp [this]
    · by_cases hj1 : j = p + 1
      · subst hj1
        simp [hp]
      · by_cases hlt : j < p
        · simp [hj, hj1, hlt]
        · simp [hj, hj1, BitVec.getLsbD_of_ge x (j - p) (by omega)]
  rw [CsrFields.toWord, BitVec.getLsbD_or, BitVec.getLsbD_or, BitVec.getLsbD_or, one _ _ h1, one _ _ h2, two _ _ h4,
    two _ _ h6]

/-- Reading the fields of a word written with them gives them back: no field of an admissible layout overlaps another
(10_state.md R26). -/
@[simp] theorem CsrFields.ofWord_toWord {l : CsrLayout} (h : l.wf) (f : CsrFields) :
    CsrFields.ofWord l (f.toWord l) = f := by
  have hb := toWord_getLsbD h f
  obtain ⟨-, hn⟩ := h
  simp only [CsrLayout.bits, List.nodup_cons, List.mem_cons, List.not_mem_nil, or_false, not_or] at hn
  obtain ⟨⟨n1, n2, n3, n4, n5⟩, ⟨n6, n7, n8, n9⟩, ⟨n10, n11, n12⟩, ⟨n13, n14⟩, n15, -⟩ := hn
  have cmr : BitVec.extractLsb' l.cmr 2 (f.toWord l) = f.cmr := by
    apply BitVec.eq_of_getLsbD_eq
    intro j hj
    rw [BitVec.getLsbD_extractLsb', hb]
    have : j = 0 ∨ j = 1 := by omega
    rcases this with rfl | rfl
    · simp; grind
    · simp; grind
  have cks : BitVec.extractLsb' l.cks 2 (f.toWord l) = f.cks := by
    apply BitVec.eq_of_getLsbD_eq
    intro j hj
    rw [BitVec.getLsbD_extractLsb', hb]
    have : j = 0 ∨ j = 1 := by omega
    rcases this with rfl | rfl
    · simp; grind
    · simp; grind
  have cmf : (f.toWord l).getLsbD l.cmf = f.cmf := by rw [hb]; grind
  have ovf : (f.toWord l).getLsbD l.ovf = f.ovf := by rw [hb]; grind
  rw [CsrFields.ofWord, cmf, ovf, cmr, cks]

/-- A word written with fields has no reserved bit set (10_state.md R27). -/
theorem CsrFields.toWord_implemented {l : CsrLayout} (h : l.wf) (f : CsrFields) :
    f.toWord l &&& ~~~ csrImplemented l = 0 := by
  apply BitVec.eq_of_getLsbD_eq
  intro j hj
  rw [BitVec.getLsbD_and, BitVec.getLsbD_not, csrImplemented, toWord_getLsbD h, toWord_getLsbD h]
  simp only [hj]
  grind

/-- The CMF bit alone is the word of the field CMF alone (10_state.md R26). -/
theorem cmfBit_getLsbD {l : CsrLayout} (h : l.wf) (j : Nat) : (cmfBit l).getLsbD j = decide (j = l.cmf) := by
  have h1 : l.cmf < 32 := h.1 l.cmf (by simp [CsrLayout.bits])
  rw [cmfBit, BitVec.getLsbD_shiftLeft]
  by_cases hj : j = l.cmf
  · subst hj; simp [h1]
  · by_cases hlt : j < l.cmf
    · simp [hj, hlt]
    · have : j - l.cmf ≠ 0 := by omega
      simp [hj, this]

/-- Setting CMF leaves every other field as it was (40_countdown_clock.md R107). -/
theorem CsrFields.ofWord_or_cmfBit {l : CsrLayout} (h : l.wf) (csr : Word) :
    CsrFields.ofWord l (csr ||| cmfBit l) = { CsrFields.ofWord l csr with cmf := true } := by
  have hn := h.2
  simp only [CsrLayout.bits, List.nodup_cons, List.mem_cons, List.not_mem_nil, or_false, not_or] at hn
  obtain ⟨⟨n1, n2, n3, n4, n5⟩, -⟩ := hn
  have cmf : (csr ||| cmfBit l).getLsbD l.cmf = true := by
    rw [BitVec.getLsbD_or, cmfBit_getLsbD h]; simp
  have ovf : (csr ||| cmfBit l).getLsbD l.ovf = csr.getLsbD l.ovf := by
    rw [BitVec.getLsbD_or, cmfBit_getLsbD h]; grind
  have two (p : Nat) (h0 : l.cmf ≠ p) (h1 : l.cmf ≠ p + 1) :
      (csr ||| cmfBit l).extractLsb' p 2 = csr.extractLsb' p 2 := by
    apply BitVec.eq_of_getLsbD_eq
    intro j hj
    rw [BitVec.getLsbD_extractLsb', BitVec.getLsbD_extractLsb', BitVec.getLsbD_or, cmfBit_getLsbD h]
    have : p + j ≠ l.cmf := by omega
    simp [this]
  rw [CsrFields.ofWord, CsrFields.ofWord, cmf, ovf, two _ n2 n3, two _ n4 n5]

/-- Setting CMF sets no reserved bit (10_state.md R27). -/
theorem or_cmfBit_implemented {l : CsrLayout} (h : l.wf) {csr : Word} (hc : csr &&& ~~~ csrImplemented l = 0) :
    (csr ||| cmfBit l) &&& ~~~ csrImplemented l = 0 := by
  apply BitVec.eq_of_getLsbD_eq
  intro j hj
  have hj0 : (csr &&& ~~~ csrImplemented l).getLsbD j = false := by rw [hc]; simp
  have himp : (csrImplemented l).getLsbD l.cmf = true := by
    rw [csrImplemented, CsrFields.toWord_getLsbD h]; simp
  rw [BitVec.getLsbD_and, BitVec.getLsbD_not] at hj0 ⊢
  rw [BitVec.getLsbD_or, cmfBit_getLsbD h]
  by_cases hjc : j = l.cmf
  · subst hjc; simp [himp]
  · simp [hjc] at hj0 ⊢; exact hj0

section Fields
variable {l : CsrLayout} (h : l.wf)
include h

/-- The fields a CSR write leaves are those of the field algebra (41_channel_registers.md R132). -/
@[simp] theorem ofWord_csrAfterWrite (old m : Word) :
    CsrFields.ofWord l (csrAfterWrite l old m) =
      CsrFields.written (CsrFields.ofWord l old) (CsrFields.ofWord l m) :=
  CsrFields.ofWord_toWord h _

/-- A compare match sets CMF (40_countdown_clock.md R107). -/
@[simp] theorem Channel.compareMatch_cmf (c : Channel) : (c.compareMatch l).cmf l = true := by
  simp [Channel.cmf, CsrFields.ofWord_or_cmfBit h]

/-- A compare match leaves OVF (40_countdown_clock.md R107). -/
@[simp] theorem Channel.compareMatch_ovf (c : Channel) : (c.compareMatch l).ovf l = c.ovf l := by
  simp [Channel.ovf, CsrFields.ofWord_or_cmfBit h]

/-- A compare match leaves CMR (40_countdown_clock.md R107). -/
@[simp] theorem Channel.compareMatch_cmr (c : Channel) : (c.compareMatch l).cmr l = c.cmr l := by
  simp [Channel.cmr, CsrFields.ofWord_or_cmfBit h]

/-- A compare match leaves CKS (40_countdown_clock.md R107). -/
@[simp] theorem Channel.compareMatch_cks (c : Channel) : (c.compareMatch l).cks l = c.cks l := by
  simp [Channel.cks, CsrFields.ofWord_or_cmfBit h]

end Fields

/-- The divisor is positive (00_scope.md R15). -/
theorem divisor_pos (cks : BitVec 2) : 0 < divisor cks := by revert cks; decide

/-- A drawn phase lies in [0, d) (00_scope.md section 4). -/
theorem drawPhase_lt (seq i : Nat) {d : Nat} (hd : 0 < d) : drawPhase seq i d < d := by
  unfold drawPhase
  split
  · exact hd
  · exact Nat.mod_lt _ hd

end Sys2Proof.Machine
end

