-- ==== Sys2Proof/Laws/Ops.lean ====
section
/-! SUPPORT. What each shared operation can do, said once: the lemmas a proof cites instead of unfolding a step. -/

namespace Sys2Proof.Machine

section Guard
variable {s t : State} {r : Result}

/-- An admissible configuration is not refused (00_scope.md R11). -/
@[simp] theorem whenAdmissible_of_wf {c : Config} (h : c.wf) : whenAdmissible c r = r := if_pos h

/-- A configuration outside its domain is refused (00_scope.md R11). -/
@[simp] theorem whenAdmissible_of_not_wf {c : Config} (h : ¬ c.wf) :
    whenAdmissible c r = .refused .badConfiguration := if_neg h

/-- A next state comes only of an admissible configuration. -/
theorem whenAdmissible_eq_next {c : Config} : whenAdmissible c r = .next t ↔ c.wf ∧ r = .next t := by
  constructor
  · intro h
    unfold whenAdmissible at h
    split at h
    · exact ⟨‹_›, h⟩
    · cases h
  · rintro ⟨h, rfl⟩
    exact whenAdmissible_of_wf h

/-- A working controller runs what the guard holds. -/
@[simp] theorem whenLive_of_live (h : s.Live) : whenLive s r = r := by
  rw [whenLive, h.2.1, h.2.2, whenAdmissible_of_wf h.1]

/-- A machine without a mark refuses what the guard holds where its configuration is outside its domain
(00_scope.md R11). -/
theorem whenLive_of_not_wf (h : ¬ s.cfg.wf) (hf : s.ctrl.fault = none) (hr : s.ctrl.refused = none) :
    whenLive s r = .refused .badConfiguration := by
  rw [whenLive, hf, hr, whenAdmissible_of_not_wf h]

/-- The guard answers a next state only on a working controller, and then the one it holds. -/
theorem whenLive_eq_next : whenLive s r = .next t ↔ s.Live ∧ r = .next t := by
  constructor
  · intro h
    unfold whenLive at h
    split at h
    · cases h
    · cases h
    · rename_i hf hr
      obtain ⟨hw, h⟩ := whenAdmissible_eq_next.1 h
      exact ⟨⟨hw, hf, hr⟩, h⟩
  · rintro ⟨h, rfl⟩
    exact whenLive_of_live h

/-- A recorded fault stops every guarded step (60_exceptions.md R201). -/
theorem whenLive_of_fault {f : FaultRecord} (h : s.ctrl.fault = some f) : whenLive s r = .fault (.halted f) := by
  rw [whenLive, h]

/-- A recorded refusal stops every guarded step (60_exceptions.md R205). -/
theorem whenLive_of_refused {why : RefusalReason} (hf : s.ctrl.fault = none) (h : s.ctrl.refused = some why) :
    whenLive s r = .refused (.halted why) := by
  rw [whenLive, hf, h]

/-- A channel operation on a working controller that has the channel runs on it. -/
theorem onChannel_of_some {ch : Nat} {a : Access} {run : Channel → Result} {c : Channel} (h : s.Live)
    (hc : s.ctrl.chans[ch]? = some c) : onChannel s ch a run = run c := by
  rw [onChannel, whenLive_of_live h, hc]

/-- What a channel operation can answer. -/
theorem onChannel_eq_next {ch : Nat} {a : Access} {run : Channel → Result} (h : onChannel s ch a run = .next t) :
    s.Live ∧ ((∃ c, s.ctrl.chans[ch]? = some c ∧ run c = .next t) ∨
      (s.ctrl.chans[ch]? = none ∧ t = s.takeFault (faultOf .channelOutOfRange a))) := by
  obtain ⟨hl, h⟩ := whenLive_eq_next.1 h
  refine ⟨hl, ?_⟩
  split at h
  · exact .inl ⟨_, ‹_›, h⟩
  · cases h; exact .inr ⟨‹_›, rfl⟩

end Guard

/-- What an operation of the table can do when it answers a next state: a read answers and leaves the controller, a
write replaces one channel or the start/stop register with the transitions it makes, and a channel index beyond the
array is a fault. -/
theorem exec_cases {i : Instr} {s t : State} (h : exec i s = .next t) :
    s.Live ∧
    ((∃ full w, t = s.answer full w) ∨
     (∃ w v, i = .ssrWr w v ∧ t = s.nextDraw.commit
        (s.ctrl.writeSsr s.cfg.channelCount s.cfg.layout s.draws (merge s.ctrl.ssr v w)) (some .written)) ∨
     (∃ ch w v c, i = .csrWr ch w v ∧ s.ctrl.chans[ch]? = some c ∧ t = s.nextDraw.writeChannel ch
        (c.setCsr s.cfg.layout s.draws ch (s.ctrl.enabled ch)
          (csrAfterWrite s.cfg.layout c.csr (merge c.csr v w)))) ∨
     (∃ ch w v c, i = .cntWr ch w v ∧ s.ctrl.chans[ch]? = some c ∧
        t = s.writeChannel ch (c.setCount (merge (c.count (s.ctrl.enabled ch)) v w))) ∨
     (∃ ch w v c, i = .corWr ch w v ∧ s.ctrl.chans[ch]? = some c ∧
        t = s.writeChannel ch (c.setLimit (merge c.cor v w))) ∨
     (t = s.takeFault (faultOf .channelOutOfRange i.access))) := by
  cases i with
  | ssrRd w =>
    obtain ⟨hl, h⟩ := whenLive_eq_next.1 h
    cases h; exact ⟨hl, .inl ⟨_, _, rfl⟩⟩
  | ssrWr w v =>
    obtain ⟨hl, h⟩ := whenLive_eq_next.1 h
    cases h; exact ⟨hl, .inr (.inl ⟨w, v, rfl, rfl⟩)⟩
  | csrRd ch w =>
    obtain ⟨hl, ⟨c, -, h⟩ | ⟨-, rfl⟩⟩ := onChannel_eq_next h
    · cases h; exact ⟨hl, .inl ⟨_, _, rfl⟩⟩
    · exact ⟨hl, by simp⟩
  | csrWr ch w v =>
    obtain ⟨hl, ⟨c, hc, h⟩ | ⟨-, rfl⟩⟩ := onChannel_eq_next h
    · cases h; exact ⟨hl, .inr (.inr (.inl ⟨ch, w, v, c, rfl, hc, rfl⟩))⟩
    · exact ⟨hl, by simp⟩
  | cntRd ch w =>
    obtain ⟨hl, ⟨c, -, h⟩ | ⟨-, rfl⟩⟩ := onChannel_eq_next h
    · cases h; exact ⟨hl, .inl ⟨_, _, rfl⟩⟩
    · exact ⟨hl, by simp⟩
  | cntWr ch w v =>
    obtain ⟨hl, ⟨c, hc, h⟩ | ⟨-, rfl⟩⟩ := onChannel_eq_next h
    · cases h; exact ⟨hl, .inr (.inr (.inr (.inl ⟨ch, w, v, c, rfl, hc, rfl⟩)))⟩
    · exact ⟨hl, by simp⟩
  | corRd ch w =>
    obtain ⟨hl, ⟨c, -, h⟩ | ⟨-, rfl⟩⟩ := onChannel_eq_next h
    · cases h; exact ⟨hl, .inl ⟨_, _, rfl⟩⟩
    · exact ⟨hl, by simp⟩
  | corWr ch w v =>
    obtain ⟨hl, ⟨c, hc, h⟩ | ⟨-, rfl⟩⟩ := onChannel_eq_next h
    · cases h; exact ⟨hl, .inr (.inr (.inr (.inr (.inl ⟨ch, w, v, c, rfl, hc, rfl⟩))))⟩
    · exact ⟨hl, by simp⟩

section Ticks
variable {l : CsrLayout} {ssr : Word}

/-- What a base tick does to an enabled channel that it does not refuse: it counts in the prescaler, or the prescaler
wraps and the decrementer steps or the compare match happens (40_countdown_clock.md R104 to R107). -/
theorem Channel.tick_cases {c c' : Channel} (h : c.tick l = some c') :
    (c.psc + 1 < c.div l ∧ c' = { c with psc := c.psc + 1 }) ∨
    (¬ c.psc + 1 < c.div l ∧ c.cor ≠ 0 ∧ c.remaining ≤ 1 ∧ c' = ({ c with psc := 0 } : Channel).compareMatch l) ∨
    (¬ c.psc + 1 < c.div l ∧ c.cor ≠ 0 ∧ ¬ c.remaining ≤ 1 ∧
      c' = { c with psc := 0, remaining := c.remaining - 1 }) := by
  unfold Channel.tick at h
  split at h
  · cases h; exact .inl ⟨‹_›, rfl⟩
  · unfold Channel.prescaledTick at h
    split at h
    · cases h
    · split at h
      · cases h; exact .inr (.inl ⟨‹_›, ‹_›, ‹_›, rfl⟩)
      · cases h; exact .inr (.inr ⟨‹_›, ‹_›, ‹_›, rfl⟩)

/-- A base tick refuses an enabled channel exactly when its prescaler wraps with COR 0 (40_countdown_clock.md R109). -/
theorem Channel.tick_eq_none {c : Channel} : c.tick l = none ↔ ¬ c.psc + 1 < c.div l ∧ c.cor = 0 := by
  unfold Channel.tick Channel.prescaledTick
  grind

theorem tickFrom_cons {i : Nat} {c : Channel} {rest : List Channel} :
    tickFrom l ssr i (c :: rest) =
      match tickIfEnabled l ssr i c, tickFrom l ssr (i + 1) rest with
      | some c', some rest' => some (c' :: rest')
      | _, _ => none := rfl

/-- A base tick on the channels from index `i` on: each one by itself (40_countdown_clock.md R118). -/
theorem tickFrom_eq_some {i : Nat} {cs cs' : List Channel} :
    tickFrom l ssr i cs = some cs' ↔
      cs'.length = cs.length ∧
      ∀ j c, cs[j]? = some c → ∃ c', cs'[j]? = some c' ∧ tickIfEnabled l ssr (i + j) c = some c' := by
  induction cs generalizing i cs' with
  | nil => cases cs' <;> simp [tickFrom]
  | cons c rest ih =>
    constructor
    · intro h
      rw [tickFrom_cons] at h
      split at h
      · rename_i c' rest' hc hr
        cases h
        obtain ⟨hlen, hall⟩ := ih.1 hr
        refine ⟨by simp [hlen], ?_⟩
        intro j d hd
        cases j with
        | zero => simp at hd; subst hd; exact ⟨c', by simp, hc⟩
        | succ j =>
          obtain ⟨d', h1, h2⟩ := hall j d (by simpa using hd)
          exact ⟨d', by simpa using h1, by rw [← h2]; congr 1; omega⟩
      · cases h
    · rintro ⟨hlen, hall⟩
      cases cs' with
      | nil => simp at hlen
      | cons c' rest' =>
        obtain ⟨d, hd, hc⟩ := hall 0 c (by simp)
        simp at hd
        subst hd
        have hr : tickFrom l ssr (i + 1) rest = some rest' := by
          refine ih.2 ⟨by simpa using hlen, ?_⟩
          intro j d hd
          obtain ⟨d', h1, h2⟩ := hall (j + 1) d (by simpa using hd)
          exact ⟨d', by simpa using h1, by rw [← h2]; congr 1; omega⟩
        simp only [Nat.add_zero] at hc
        simp [tickFrom_cons, hc, hr]

/-- A base tick refuses exactly when it refuses one of the channels (40_countdown_clock.md R104). -/
theorem tickFrom_eq_none {i : Nat} {cs : List Channel} :
    tickFrom l ssr i cs = none ↔ ∃ j c, cs[j]? = some c ∧ tickIfEnabled l ssr (i + j) c = none := by
  induction cs generalizing i with
  | nil => simp [tickFrom]
  | cons c rest ih =>
    have hsplit : (∃ j d, (c :: rest)[j]? = some d ∧ tickIfEnabled l ssr (i + j) d = none) ↔
        tickIfEnabled l ssr i c = none ∨ ∃ j d, rest[j]? = some d ∧ tickIfEnabled l ssr (i + 1 + j) d = none := by
      constructor
      · rintro ⟨j, d, hd, hn⟩
        cases j with
        | zero => simp at hd; subst hd; exact .inl hn
        | succ j => exact .inr ⟨j, d, by simpa using hd, by rw [← hn]; congr 1; omega⟩
      · rintro (h | ⟨j, d, hd, hn⟩)
        · exact ⟨0, c, by simp, h⟩
        · exact ⟨j + 1, d, by simpa using hd, by rw [← hn]; congr 1; omega⟩
    rw [hsplit, ← ih]
    cases h1 : tickIfEnabled l ssr i c <;> cases h2 : tickFrom l ssr (i + 1) rest <;> simp [tickFrom_cons, h1, h2]

end Ticks

/-- What a base tick can answer: every channel ticked, or the refusal recorded (40_countdown_clock.md R104). -/
theorem tickEvent_cases {s t : State} (h : tickEvent s = .next t) :
    s.Live ∧
    ((∃ cs, tickFrom s.cfg.layout s.ctrl.ssr 0 s.ctrl.chans = some cs ∧
        t = s.commit { s.ctrl with chans := cs } none) ∨
     (tickFrom s.cfg.layout s.ctrl.ssr 0 s.ctrl.chans = none ∧ t = s.takeRefusal .zeroLimitRunning)) := by
  obtain ⟨hl, h⟩ := whenLive_eq_next.1 h
  refine ⟨hl, ?_⟩
  split at h
  · cases h; exact .inl ⟨_, ‹_›, rfl⟩
  · cases h; exact .inr ⟨‹_›, rfl⟩

/-- What a reset can answer: the controller newly constructed (70_reset_and_hazards.md R230). -/
theorem resetEvent_cases {s t : State} (h : resetEvent s = .next t) :
    s.cfg.wf ∧ t = s.commit (Controller.reset s.cfg) none := by
  obtain ⟨hw, h⟩ := whenAdmissible_eq_next.1 h
  cases h
  exact ⟨hw, rfl⟩

/-- What a bus access can answer: the operation it selects, or the fault of the decode (42_controller.md R173). -/
theorem accessEvent_cases {a : Access} {s t : State} (h : accessEvent a s = .next t) :
    s.Live ∧
    ((∃ i, decode s.cfg.channelCount a = .ok i ∧ exec i s = .next t) ∨
     (∃ kind, decode s.cfg.channelCount a = .error kind ∧ t = s.takeFault (faultOf kind a))) := by
  obtain ⟨hl, h⟩ := whenLive_eq_next.1 h
  refine ⟨hl, ?_⟩
  split at h
  · exact .inl ⟨_, ‹_›, h⟩
  · cases h; exact .inr ⟨_, ‹_›, rfl⟩

/-- Taking the next request leaves the controller, its parameters, the draws and the outputs. -/
@[simp] theorem State.takeRequest_cfg (s : State) : s.takeRequest.2.cfg = s.cfg := by
  unfold State.takeRequest; split <;> rfl

@[simp] theorem State.takeRequest_ctrl (s : State) : s.takeRequest.2.ctrl = s.ctrl := by
  unfold State.takeRequest; split <;> rfl

@[simp] theorem State.takeRequest_draws (s : State) : s.takeRequest.2.draws = s.draws := by
  unfold State.takeRequest; split <;> rfl

@[simp] theorem State.takeRequest_out (s : State) : s.takeRequest.2.out = s.out := by
  unfold State.takeRequest; split <;> rfl

/-- The next request is the one placed first. -/
theorem State.takeRequest_of_cons {s : State} {r : Request} {rest : List Request} (h : s.inbox = r :: rest) :
    s.takeRequest = (r, { s with inbox := rest }) := by
  rw [State.takeRequest, h]

/-- A step performs the request placed first. -/
theorem step_of_cons {s : State} {r : Request} {rest : List Request} (h : s.inbox = r :: rest) :
    step s = perform r { s with inbox := rest } := by
  rw [step, State.takeRequest_of_cons h]

end Sys2Proof.Machine
end

