-- ==== Sys2Proof/Laws/Frame.lean ====
section
/-! SUPPORT. What the parts of an update leave unchanged, and what a well-formed machine gives of its parts. -/

namespace Sys2Proof.Machine

/-- A channel operation on a channel that is not there takes the fault of the decode. -/
theorem onChannel_of_none {s : State} {ch : Nat} {a : Access} {run : Channel → Result} (h : s.Live)
    (hc : s.ctrl.chans[ch]? = none) :
    onChannel s ch a run = .next (s.takeFault (faultOf .channelOutOfRange a)) := by
  rw [onChannel, whenLive_of_live h, hc]

section Irq
variable {l : CsrLayout}

/-- The level of a line is a function of CSR alone (10_state.md R36). -/
theorem Channel.irq_congr {c c' : Channel} (h : c'.csr = c.csr) : c'.irq l = c.irq l := by
  unfold Channel.irq Channel.cmf Channel.cmr
  rw [h]

/-- Replacing a channel by one with the same CSR leaves every line. -/
theorem Controller.irq_setChannel {k : Controller} {ch : Nat} {c c' : Channel} (hc : k.chans[ch]? = some c)
    (h : c'.csr = c.csr) (i : Nat) : (k.setChannel ch c').irq l i = k.irq l i := by
  have hlt := (List.getElem?_eq_some_iff.1 hc).1
  by_cases hi : ch = i
  · subst hi
    rw [Controller.irq_of_getElem? hc,
      Controller.irq_of_getElem? (c := c') (by simp [hlt]), Channel.irq_congr h]
  · simp [Controller.irq, List.getElem?_set_ne hi]

/-- Replacing a channel leaves the line of every other one. -/
theorem Controller.irq_setChannel_ne {k : Controller} {ch i : Nat} {c' : Channel} (hi : i ≠ ch) :
    (k.setChannel ch c').irq l i = k.irq l i := by
  simp [Controller.irq, List.getElem?_set_ne (Ne.symm hi)]

/-- The marks of a stop and SSR do not matter for the lines. -/
theorem Controller.irq_of_chans {k k' : Controller} (h : k'.chans = k.chans) (i : Nat) :
    k'.irq l i = k.irq l i := by
  simp [Controller.irq, h]

/-- An update that leaves every line reports no change. -/
theorem changedLines_eq_nil {n : Nat} {k k' : Controller} (h : ∀ i, k'.irq l i = k.irq l i) :
    changedLines n l k k' = [] := by
  simp [changedLines, h]

/-- The lines an update reports are those below `n` whose level differs. -/
theorem mem_changedLines {n i : Nat} {k k' : Controller} :
    i ∈ changedLines n l k k' ↔ i < n ∧ k.irq l i ≠ k'.irq l i := by
  simp [changedLines]

end Irq

section SsrTransition
variable (l : CsrLayout) (seq : Nat) (old new : Word) (i : Nat) (c : Channel)

/-- No transition of an SSR write changes CSR (42_controller.md R176). -/
@[simp] theorem ssrTransition_csr : (ssrTransition l seq old new i c).csr = c.csr := by
  unfold ssrTransition; split_ifs <;> rfl

/-- No transition of an SSR write changes COR (42_controller.md R176). -/
@[simp] theorem ssrTransition_cor : (ssrTransition l seq old new i c).cor = c.cor := by
  unfold ssrTransition; split_ifs <;> rfl

/-- No transition of an SSR write changes the decrementer (42_controller.md R176). -/
@[simp] theorem ssrTransition_remaining : (ssrTransition l seq old new i c).remaining = c.remaining := by
  unfold ssrTransition; split_ifs <;> rfl

/-- The phase an SSR write leaves: drawn where the bit rises, 0 where it falls, kept where it stays (42_controller.md
R176). -/
theorem ssrTransition_psc : (ssrTransition l seq old new i c).psc =
    if new.getLsbD i = old.getLsbD i then c.psc
    else if new.getLsbD i then drawPhase seq i (c.div l) else 0 := by
  unfold ssrTransition
  cases new.getLsbD i <;> cases old.getLsbD i <;> simp

end SsrTransition

/-- Data that agree below the access width merge alike (20_memory.md R56). -/
theorem merge_congr {full v v' : Word} {w : Width}
    (h : v.toNat % 2 ^ (8 * w.bytes) = v'.toNat % 2 ^ (8 * w.bytes)) : merge full v w = merge full v' w := by
  have : narrowRead v w = narrowRead v' w := BitVec.eq_of_toNat_eq (by rw [narrowRead_toNat, narrowRead_toNat, h])
  rw [← merge_narrowRead, this, merge_narrowRead]

/-- The data of a merge below the access width are what a second merge finds there. -/
theorem merge_merge (full v : Word) (w : Width) : merge (merge full v w) v w = merge full v w := by
  apply BitVec.eq_of_getLsbD_eq
  intro j _
  simp only [merge_getLsbD]
  split <;> rfl

section WellFormed
variable {s : State} (h : s.Wf)
include h

/-- A well-formed machine has every channel below N. -/
theorem State.Wf.channel {ch : Nat} (hc : ch < s.cfg.channelCount) : ∃ c, s.ctrl.chans[ch]? = some c := by
  have hlen := h.2.1
  exact ⟨s.ctrl.chans[ch], by simp⟩

/-- A well-formed machine has no channel from N on. -/
theorem State.Wf.channel_lt {ch : Nat} {c : Channel} (hc : s.ctrl.chans[ch]? = some c) : ch < s.cfg.channelCount :=
  h.2.1 ▸ (List.getElem?_eq_some_iff.1 hc).1

/-- A channel of a well-formed machine is in its domain. -/
theorem State.Wf.channel_wf {ch : Nat} {c : Channel} (hc : s.ctrl.chans[ch]? = some c) :
    Channel.Wf s.cfg.layout (s.ctrl.enabled ch) c := by
  obtain ⟨hi, rfl⟩ := List.getElem?_eq_some_iff.1 hc
  exact h.2.2.2.1 ch hi

/-- SSR bits N..31 of a well-formed machine are 0. -/
theorem State.Wf.ssr_high {j : Nat} (hj : s.cfg.channelCount ≤ j) : s.ctrl.ssr.getLsbD j = false := by
  have h1 := congrArg (fun x : Word => x.getLsbD j) h.2.2.1
  simp only [BitVec.getLsbD_and, BitVec.getLsbD_not, lowMask_getLsbD h.1.1.2] at h1
  by_cases h32 : j < 32
  · have hn : ¬ j < s.cfg.channelCount := by omega
    simpa [h32, hn] using h1
  · exact BitVec.getLsbD_of_ge _ j (by omega)

end WellFormed

/-- A channel wise reading of the domain of a controller's state, for a proof that an update keeps it. -/
theorem Controller.wf_iff {cfg : Config} (hn : cfg.channelCount ≤ 32) {k : Controller} :
    k.Wf cfg ↔ k.chans.length = cfg.channelCount ∧ (∀ j, cfg.channelCount ≤ j → k.ssr.getLsbD j = false) ∧
      (∀ i c, k.chans[i]? = some c → Channel.Wf cfg.layout (k.enabled i) c) ∧ (k.fault = none ∨ k.refused = none) := by
  have hssr : (k.ssr &&& ~~~ lowMask cfg.channelCount = 0) ↔ ∀ j, cfg.channelCount ≤ j → k.ssr.getLsbD j = false := by
    constructor
    · intro h j hj
      have h1 := congrArg (fun x : Word => x.getLsbD j) h
      simp only [BitVec.getLsbD_and, BitVec.getLsbD_not, lowMask_getLsbD hn] at h1
      by_cases h32 : j < 32
      · have : ¬ j < cfg.channelCount := by omega
        simpa [h32, this] using h1
      · exact BitVec.getLsbD_of_ge _ j (by omega)
    · intro h
      apply BitVec.eq_of_getLsbD_eq
      intro j hj
      by_cases hlt : j < cfg.channelCount
      · simp [BitVec.getLsbD_and, BitVec.getLsbD_not, lowMask_getLsbD hn, hlt]
      · simp [BitVec.getLsbD_and, h j (by omega)]
  have hch : (∀ i, (hi : i < k.chans.length) → Channel.Wf cfg.layout (k.enabled i) k.chans[i]) ↔
      ∀ i c, k.chans[i]? = some c → Channel.Wf cfg.layout (k.enabled i) c := by
    constructor
    · intro h i c hc
      obtain ⟨hi, rfl⟩ := List.getElem?_eq_some_iff.1 hc
      exact h i hi
    · intro h i hi
      exact h i _ (List.getElem?_eq_getElem hi)
  rw [Controller.Wf, hssr, hch]

end Sys2Proof.Machine
end

