-- ==== Sys2Proof/Laws/PerInstr.lean ====
section
/-! SUPPORT. Statements about every operation as an encoded word, one lemma per constructor. -/

namespace Sys2Proof.Laws

/-- The words of an operation of a controller with at most 32 channels stand for its access: no field of the
descriptor loses a bit (30_encoding.md R71). -/
def EncodeAccess.Statement (i : Instr) : Prop :=
  ∀ n, n ≤ 32 → i.wf n → Access.ofDescriptor (encode i).1 (encode i).2 = i.access

/-- The one argument of every case: the offset fits in the descriptor. -/
theorem encodeAccess_of_offset {i : Instr} (h : i.offset < 0x2000) :
    Access.ofDescriptor (encode i).1 (encode i).2 = i.access := by
  simp [Access.ofDescriptor, encode, Instr.access, descriptorOffset_descriptorOf _ _ h]

/-- The offset of a channel register fits in the descriptor. -/
theorem channelOffset_lt {ch n : Nat} (hn : n ≤ 32) (h : ch < n) (s : Slot) : channelOffset ch s < 0x2000 := by
  cases s <;> simp only [channelOffset, Slot.offset] <;> omega

theorem EncodeAccess.ssrRd (w : Width) : EncodeAccess.Statement (.ssrRd w) :=
  fun _ _ _ => encodeAccess_of_offset (by show 0 < 0x2000; decide)

theorem EncodeAccess.ssrWr (w : Width) (v : Word) : EncodeAccess.Statement (.ssrWr w v) :=
  fun _ _ _ => encodeAccess_of_offset (by show 0 < 0x2000; decide)

theorem EncodeAccess.csrRd (ch : Nat) (w : Width) : EncodeAccess.Statement (.csrRd ch w) :=
  fun _ hn h => encodeAccess_of_offset (channelOffset_lt hn h .csr)

theorem EncodeAccess.csrWr (ch : Nat) (w : Width) (v : Word) : EncodeAccess.Statement (.csrWr ch w v) :=
  fun _ hn h => encodeAccess_of_offset (channelOffset_lt hn h .csr)

theorem EncodeAccess.cntRd (ch : Nat) (w : Width) : EncodeAccess.Statement (.cntRd ch w) :=
  fun _ hn h => encodeAccess_of_offset (channelOffset_lt hn h .cnt)

theorem EncodeAccess.cntWr (ch : Nat) (w : Width) (v : Word) : EncodeAccess.Statement (.cntWr ch w v) :=
  fun _ hn h => encodeAccess_of_offset (channelOffset_lt hn h .cnt)

theorem EncodeAccess.corRd (ch : Nat) (w : Width) : EncodeAccess.Statement (.corRd ch w) :=
  fun _ hn h => encodeAccess_of_offset (channelOffset_lt hn h .cor)

theorem EncodeAccess.corWr (ch : Nat) (w : Width) (v : Word) : EncodeAccess.Statement (.corWr ch w v) :=
  fun _ hn h => encodeAccess_of_offset (channelOffset_lt hn h .cor)

end Sys2Proof.Laws
end

