-- ==== Sys2Proof/Laws/Run.lean ====
section
/-! SUPPORT. Runs of several steps, and which of the three kinds of request a step performed. -/

namespace Sys2Proof.Machine

/-- A run of one more step begins with that step. -/
theorem core_run_succ {k : Nat} {s t : State} (h : step s = .next t) : core.run (k + 1) s = core.run k t := by
  have h' : core.step s = .next t := h
  simp only [Host.Core.run, h']

/-- A run of one more step reaches a state exactly when the first step and then the rest do. -/
theorem core_run_succ_eq_next {k : Nat} {s u : State} :
    core.run (k + 1) s = .next u ↔ ∃ t, step s = .next t ∧ core.run k t = .next u := by
  constructor
  · intro h
    cases hs : step s with
    | next t => exact ⟨t, rfl, by rwa [core_run_succ hs] at h⟩
    | fault r =>
      have h' : core.step s = .fault r := hs
      simp only [Host.Core.run, h'] at h; cases h
    | refused r =>
      have h' : core.step s = .refused r := hs
      simp only [Host.Core.run, h'] at h; cases h
  · rintro ⟨t, hs, h⟩
    rwa [core_run_succ hs]

/-- A run that reaches a state goes on from there. -/
theorem core_run_add {a b : Nat} {s t : State} (h : core.run a s = .next t) : core.run (a + b) s = core.run b t := by
  induction a generalizing s with
  | zero => cases h; rw [Nat.zero_add]
  | succ a ih =>
    obtain ⟨u, hs, hu⟩ := core_run_succ_eq_next.1 h
    rw [show a + 1 + b = (a + b) + 1 by omega, core_run_succ hs]
    exact ih hu

/-- What a step performed: a bus access, a base tick or a reset (00_scope.md R14). -/
theorem step_cases {s t : State} (h : step s = .next t) :
    (∃ a, s.takeRequest.1 = .access a ∧ accessEvent a s.takeRequest.2 = .next t) ∨
    (s.takeRequest.1 = .tick ∧ tickEvent s.takeRequest.2 = .next t) ∨
    (s.takeRequest.1 = .reset ∧ resetEvent s.takeRequest.2 = .next t) := by
  unfold step perform at h
  split at h
  · exact .inl ⟨_, ‹_›, h⟩
  · exact .inr (.inl ⟨‹_›, h⟩)
  · exact .inr (.inr ⟨‹_›, h⟩)

end Sys2Proof.Machine
end

