-- ==== Sys2Proof/Laws/Snapshot.lean ====
section
/-! SUPPORT. What a restore of the controller leaves of each field of the machine (log entry 15). -/

namespace Sys2Proof.Machine

@[simp] theorem State.restore_cfg (s : State) (v : Saved) : (s.restore v).cfg = s.cfg := rfl
@[simp] theorem State.restore_inbox (s : State) (v : Saved) : (s.restore v).inbox = s.inbox := rfl
@[simp] theorem State.restore_envSeq (s : State) (v : Saved) : (s.restore v).envSeq = s.envSeq := rfl
@[simp] theorem State.restore_draws (s : State) (v : Saved) : (s.restore v).draws = s.draws + 1 := rfl
@[simp] theorem State.restore_ctrl (s : State) (v : Saved) :
    (s.restore v).ctrl = v.restore s.cfg.layout s.draws := rfl
@[simp] theorem State.restore_reply (s : State) (v : Saved) : (s.restore v).out.reply = none := rfl
@[simp] theorem State.restore_lineChanges (s : State) (v : Saved) :
    (s.restore v).out.lineChanges =
      changedLines s.cfg.channelCount s.cfg.layout s.ctrl (v.restore s.cfg.layout s.draws) := rfl

end Sys2Proof.Machine
end

