-- ==== Sys2Proof/Tests/Slice0.lean ====
section
/-! SUPPORT. Tests with results taken from 95_test_vectors.md or computed by hand from the rules, and a witness for the
hypotheses of each statement. -/

namespace Sys2Proof.Tests

open Sys2Proof.Machine

/-! ## Small states -/

/-- The parameters of 95_test_vectors.md: N = 5, 50 MHz, the default layout. -/
def cfg5 : Config :=
  { channelCount := 5, baseHz := 50000000, layout := defaultLayout, resetRemaining := .limit }

/-- The same with 16 channels. -/
def cfg16 : Config := { cfg5 with channelCount := 16 }

/-- A machine newly constructed, with channel 0 and SSR set. -/
def st (ssr : Word) (c : Channel) : State :=
  let s := State.resetOf cfg5
  { s with ctrl := { s.ctrl with ssr := ssr, chans := s.ctrl.chans.set 0 c } }

/-- The same with requests placed. -/
def stq (ssr : Word) (c : Channel) (rs : List Request) : State := (st ssr c).place rs

/-- Channel 0 after an answer. -/
def ch0 (r : Result) : Option Channel :=
  match r with
  | .next t => t.ctrl.chans[0]?
  | .fault _ => none
  | .refused _ => none

/-- The data a read answered. -/
def data (r : Result) : Option Word :=
  match r with
  | .next t => match t.out.reply with
    | some (.data v) => some v
    | _ => none
  | .fault _ => none
  | .refused _ => none

/-- SSR after an answer. -/
def ssrOf (r : Result) : Option Word :=
  match r with
  | .next t => some t.ctrl.ssr
  | .fault _ => none
  | .refused _ => none

/-- The lines an answer changed. -/
def changes (r : Result) : Option (List Nat) :=
  match r with
  | .next t => some t.out.lineChanges
  | .fault _ => none
  | .refused _ => none

/-- The marks after an answer. -/
def marks (r : Result) : Option (Option FaultRecord × Option RefusalReason) :=
  match r with
  | .next t => some (t.ctrl.fault, t.ctrl.refused)
  | .fault _ => none
  | .refused _ => none

/-! ## Well-formedness: an ill-formed term for each check -/

theorem test_wf_accepts_cfg5 : cfg5.wf := by decide
theorem test_wf_accepts_32_channels : ({ cfg5 with channelCount := 32 } : Config).wf := by decide
theorem test_wf_refuses_no_channel : ¬ ({ cfg5 with channelCount := 0 } : Config).wf := by decide
theorem test_wf_refuses_33_channels : ¬ ({ cfg5 with channelCount := 33 } : Config).wf := by decide
theorem test_wf_refuses_zero_clock : ¬ ({ cfg5 with baseHz := 0 } : Config).wf := by decide
theorem test_wf_refuses_overlapping_layout : ¬ ({ cmf := 5, ovf := 14, cmr := 4, cks := 0 } : CsrLayout).wf := by
  decide
theorem test_wf_refuses_layout_beyond_register : ¬ ({ cmf := 15, ovf := 14, cmr := 31, cks := 0 } : CsrLayout).wf := by
  decide
theorem test_wf_refuses_channel_5_of_5 :
    ¬ (Instr.csrRd 5 .word).wf 5 ∧ ¬ (Instr.csrWr 5 .word 0).wf 5 ∧ ¬ (Instr.cntRd 5 .word).wf 5 ∧
    ¬ (Instr.cntWr 5 .word 0).wf 5 ∧ ¬ (Instr.corRd 5 .word).wf 5 ∧ ¬ (Instr.corWr 5 .word 0).wf 5 := by decide

/-! ## Decoding: descriptors written out from 30_encoding.md R71, D S G L; vectors L2-1 and L3 -/

theorem test_decode_ssrRd : decode 5 (Access.ofDescriptor 0b0_10_000000000_0000#16 0) = .ok (.ssrRd .word) := by
  decide
theorem test_decode_ssrWr : decode 5 (Access.ofDescriptor 0b1_00_000000000_0000#16 7) = .ok (.ssrWr .byte 7) := by
  decide
theorem test_decode_csrRd : decode 5 (Access.ofDescriptor 0b0_10_000000001_0000#16 0) = .ok (.csrRd 0 .word) := by
  decide
theorem test_decode_csrWr : decode 5 (Access.ofDescriptor 0b1_01_000000010_0000#16 7) = .ok (.csrWr 1 .half 7) := by
  decide
theorem test_decode_cntRd : decode 5 (Access.ofDescriptor 0b0_01_000000001_0100#16 0) = .ok (.cntRd 0 .half) := by
  decide
theorem test_decode_cntWr : decode 5 (Access.ofDescriptor 0b1_10_000000101_0100#16 7) = .ok (.cntWr 4 .word 7) := by
  decide
theorem test_decode_corRd : decode 5 (Access.ofDescriptor 0b0_10_000000101_1000#16 0) = .ok (.corRd 4 .word) := by
  decide
theorem test_decode_corWr : decode 5 (Access.ofDescriptor 0b1_00_000000001_1000#16 7) = .ok (.corWr 0 .byte 7) := by
  decide
theorem test_decode_last_channel_of_32 :
    decode 32 (Access.ofDescriptor 0x4200#16 0) = .ok (.csrRd 31 .word) := by decide
theorem test_decode_width_first : decode 5 (Access.ofDescriptor 0x6060#16 0) = .error .badWidth := by decide
theorem test_decode_shared_hole :
    decode 5 (Access.ofDescriptor 0x4001#16 0) = .error .badSharedOffset ∧
    decode 5 (Access.ofDescriptor 0xC00C#16 0) = .error .badSharedOffset ∧
    decode 5 (Access.ofDescriptor 0x400F#16 0) = .error .badSharedOffset := by decide
theorem test_decode_channel_before_slot :
    decode 5 (Access.ofDescriptor 0x406C#16 0) = .error .channelOutOfRange ∧
    decode 1 (Access.ofDescriptor 0x4020#16 0) = .error .channelOutOfRange := by decide
theorem test_decode_no_register :
    decode 5 (Access.ofDescriptor 0x401C#16 0) = .error .badRegisterOffset ∧
    decode 5 (Access.ofDescriptor 0x4012#16 0) = .error .badRegisterOffset ∧
    decode 5 (Access.ofDescriptor 0x8011#16 0) = .error .badRegisterOffset ∧
    decode 5 (Access.ofDescriptor 0x405C#16 0) = .error .badRegisterOffset := by decide
/-- A width no size code writes, and an offset no descriptor writes (30_encoding.md R71). -/
theorem test_decode_beyond_descriptors :
    decode 5 { dir := .read, width := 3, offset := 0, data := 0 } = .error .badWidth ∧
    decode 5 { dir := .write, width := 4, offset := 0x2000, data := 0 } = .error .channelOutOfRange := by decide
/-- `WR.4 0x018, 0x000003E8` is descriptor 0xC018 (30_encoding.md R80). -/
theorem test_encode_corWr : encode (.corWr 0 .word 0x3E8#32) = (0xC018#16, 0x3E8#32) := by decide
theorem test_decodeTableWord :
    decodeTableWord 16 0x4010 = some (.csrRd 0 .word) ∧ decodeTableWord 16 0x8000 = some (.ssrWr .byte 0) ∧
    decodeTableWord 48 0x3E8C018 = some (.corWr 0 .word 0x3E8#32) ∧ decodeTableWord 16 0x6000 = none := by decide
theorem test_step_runs_fetch_word :
    step (State.reset.withFetchWord 16 0xC018) =
      exec (.corWr 0 .word 0) { State.reset with inbox := [] } := by rfl

/-! ## The shared register: L2-2 -/

theorem test_ssrRd : data (exec (.ssrRd .byte) (st 0x1F#32 (Channel.reset cfg5))) = some 0x1F#32 := by decide
/-- Bits N..31 are ignored; with N = 16 a 1-byte write keeps bits 8 to 15. -/
theorem test_ssrWr_bits :
    ssrOf (exec (.ssrWr .word 0xFFFFFFFF#32) (st 0 (Channel.reset cfg5))) = some 0x1F#32 ∧
    ssrOf (exec (.ssrWr .byte 0x1#32) { State.resetOf cfg16 with
      ctrl := { Controller.reset cfg16 with ssr := 0x0100#32 } }) = some 0x0101#32 := by decide
/-- No transition keeps the phase; pausing freezes the decrementer and discards the phase (L2-8). -/
theorem test_ssrWr_phase :
    ch0 (exec (.ssrWr .word 0x5#32) (st 0x5#32 ⟨0, 1000, 10, 3⟩)) = some ⟨0, 1000, 10, 3⟩ ∧
    ch0 (exec (.ssrWr .word 0) (st 0x1#32 ⟨0, 1000, 10, 5⟩)) = some ⟨0, 1000, 10, 0⟩ := by decide

/-! ## CSR: L2-3, L2-4 -/

theorem test_csrRd : data (exec (.csrRd 0 .half) (st 0 ⟨0x4023, 1000, 10, 0⟩)) = some 0x4023#32 := by decide
/-- Reserved bits are dropped and flags not set. -/
theorem test_csrWr_ones :
    ch0 (exec (.csrWr 0 .word 0xFFFFFFFF#32) (st 0 ⟨0, 1000, 10, 0⟩)) = some ⟨0x33, 1000, 10, 0⟩ := by decide
/-- Clearing CMF sets OVF, even with 0 in the OVF position, and deasserts the line. -/
theorem test_csrWr_acknowledge :
    ch0 (exec (.csrWr 0 .word 0x23#32) (st 0 ⟨0x8023, 1000, 10, 0⟩)) = some ⟨0x4023, 1000, 10, 0⟩ ∧
    changes (exec (.csrWr 0 .word 0x23#32) (st 0 ⟨0x8023, 1000, 10, 0⟩)) = some [0] := by decide

/-! ## CNT: L2-5 -/

theorem test_cntRd_enabled : data (exec (.cntRd 0 .byte) (st 1 ⟨3, 1000, 300, 0⟩)) = some 0xBC#32 := by decide
theorem test_cntRd_disabled : data (exec (.cntRd 0 .word) (st 0 ⟨3, 1000, 300, 0⟩)) = some 0 := by decide
/-- A value above COR reloads. -/
theorem test_cntWr_above :
    ch0 (exec (.cntWr 0 .word 1001#32) (st 1 ⟨3, 1000, 300, 0⟩)) = some ⟨3, 1000, 1000, 0⟩ := by decide
/-- A narrow write merges with the elapsed count 0x2C5. -/
theorem test_cntWr_byte :
    ch0 (exec (.cntWr 0 .byte 0x10#32) (st 1 ⟨3, 1000, 291, 0⟩)) = some ⟨3, 1000, 472, 0⟩ := by decide

/-! ## COR: L2-6 -/

theorem test_corRd : data (exec (.corRd 0 .half) (st 0 (Channel.reset cfg5))) = some 0xFFFF#32 := by decide
theorem test_corWr_half :
    ch0 (exec (.corWr 0 .half 0x1234#32) (st 0 (Channel.reset cfg5))) =
      some ⟨0, 0xFFFF1234, 0xFFFF1234, 0⟩ := by decide
theorem test_corWr_byte :
    ch0 (exec (.corWr 0 .byte 0) (st 1 ⟨0x8023, 0x3E8, 10, 0⟩)) = some ⟨0x8023, 0x300, 0x300, 0⟩ := by decide

/-! ## The base tick, faults and reset: L2-7, L2-9, L3 -/

theorem test_tick_counts : ch0 (step (stq 1 ⟨0, 9, 5, 6⟩ [.tick])) = some ⟨0, 9, 5, 7⟩ := by decide
theorem test_tick_decrements : ch0 (step (stq 1 ⟨0, 9, 5, 7⟩ [.tick])) = some ⟨0, 9, 4, 0⟩ := by decide
theorem test_tick_divisor_32 : ch0 (step (stq 1 ⟨1, 9, 2, 31⟩ [.tick])) = some ⟨1, 9, 1, 0⟩ := by decide
theorem test_tick_divisor_128 : ch0 (step (stq 1 ⟨2, 9, 1, 127⟩ [.tick])) = some ⟨0x8002, 9, 9, 0⟩ := by decide
/-- A compare match with CMF already set keeps it and does not set OVF. -/
theorem test_tick_match_sticky : ch0 (step (stq 1 ⟨0x8003, 9, 1, 0⟩ [.tick])) = some ⟨0x8003, 9, 9, 0⟩ := by decide
theorem test_tick_match_from_zero :
    ch0 (step (stq 1 ⟨0x23, 5, 0, 0⟩ [.tick])) = some ⟨0x8023, 5, 5, 0⟩ ∧
    changes (step (stq 1 ⟨0x23, 5, 0, 0⟩ [.tick])) = some [0] := by decide
theorem test_tick_disabled : ch0 (step (stq 0 ⟨3, 9, 7, 0⟩ [.tick])) = some ⟨3, 9, 7, 0⟩ := by decide
theorem test_tick_zero_limit :
    marks (step (stq 1 ⟨3, 0, 0, 0⟩ [.tick])) = some (none, some .zeroLimitRunning) := by decide
theorem test_tick_zero_limit_not_yet : ch0 (step (stq 1 ⟨0, 0, 0, 3⟩ [.tick])) = some ⟨0, 0, 0, 4⟩ := by decide
/-- P4, step 7: the record of the fault. -/
theorem test_fault_record :
    marks (step (stq 0 ⟨0x33, 9, 9, 0⟩ [.access ⟨.read, 4, 0x1C, 0⟩])) =
      some (some (.access .badRegisterOffset .read 0x1C 4), none) := by decide
/-- After a fault a tick is no step, and a reset is. -/
theorem test_reset_after_fault :
    ch0 (resetEvent ((st 1 ⟨0x33, 9, 9, 0⟩).takeFault (.access .badWidth .read 0 8))) = some (Channel.reset cfg5) ∧
    marks (tickEvent ((st 1 ⟨0x33, 9, 9, 0⟩).takeFault (.access .badWidth .read 0 8))) = none := by decide
/-- CSR_IMPL under the default layout (10_state.md R26). -/
theorem test_csr_implemented : csrImplemented defaultLayout = 0xC033#32 := by decide
/-- A `TICK 3` line is three ticks, and the example line of 30_encoding.md R80 has descriptor 0xC018. -/
theorem test_program_lines :
    programRequests [.tick 3, .reset] = [.tick, .tick, .tick, .reset] ∧
    (ProgramLine.wr .word 0x018 0x3E8#32).descriptor = some 0xC018#16 := by decide
/-- 1000 base ticks at 50 MHz are 20 µs (40_countdown_clock.md R115). -/
theorem test_twenty_microseconds : secondsOf cfg5 1000 = 20 / 1000000 := by norm_num [secondsOf, cfg5]

/-! ## Witnesses: for each statement with hypotheses, a concrete input that meets them all, one for each clause -/

/-- No channel with COR 0, so no base tick refuses. -/
theorem no_refusal_of_cor_ne_zero {s : State} (h : ∀ c ∈ s.ctrl.chans, c.cor ≠ 0) :
    (∀ i, ¬ s.ctrl.TickRefusesAt s.cfg.layout i) ∧ s.ctrl.NoZeroLimitRunning :=
  ⟨fun _ ⟨_, c, hc, h0, _⟩ => h c (List.mem_of_getElem? hc) h0, fun _ c _ hc => h c (List.mem_of_getElem? hc)⟩

/-- Channel 0 enabled and running, phase 3 of 8, CMF and OVF set, CMR 2. -/
def running : Channel := ⟨0xC020, 1000, 300, 3⟩

/-- The same without a flag. -/
def quiet : Channel := ⟨0x20, 1000, 300, 3⟩

/-- Channel 0 stopped with elapsed count 700. -/
def stopped : Channel := ⟨0x20, 1000, 300, 0⟩

/-- A reset machine with other parameters. -/
def withConfig (cfg : Config) (rs : List Request) : State :=
  { State.resetOf cfg5 with cfg := cfg, inbox := rs }

/-- The access of an operation, placed. -/
def asked (ssr : Word) (c : Channel) (i : Instr) : State := stq ssr c [.access i.access]

/-- A machine with a fault recorded. -/
def faulted (rs : List Request) : State :=
  { stq 1 running rs with ctrl := { (st 1 running).ctrl with fault := some (.access .badWidth .read 0 8) } }

/-- A machine with a refusal recorded. -/
def refusing (rs : List Request) : State :=
  { stq 1 running rs with ctrl := { (st 1 running).ctrl with refused := some .zeroLimitRunning } }

theorem running_wf : (st 1 running).Wf ∧ (st 1 running).Live ∧ (st 1 running).ctrl.chans[0]? = some running := by decide
theorem quiet_wf : (st 1 quiet).Wf ∧ (st 1 quiet).Live ∧ (st 1 quiet).ctrl.chans[0]? = some quiet := by decide
theorem stopped_wf : (st 0 stopped).Wf ∧ (st 0 stopped).Live ∧ (st 0 stopped).ctrl.chans[0]? = some stopped := by decide

theorem witness_DecodeOfEncode : (5 ≤ 32 ∧ (Instr.corWr 4 .byte 7).wf 5) ∧ 32 ≤ 32 ∧ (Instr.cntRd 31 .half).wf 32 := by
  decide
theorem witness_EncodeOfDecode :
    decode 5 (Access.ofDescriptor 0x8000#16 7#32) = .ok (.ssrWr .byte 7) ∧ (Instr.ssrWr .byte 7).dir = .write ∧
    decode 32 (Access.ofDescriptor 0x4208#16 0) = .ok (.corRd 31 .word) := by decide
theorem witness_DecodeAcceptsTheRegisterMap :
    decode 5 { dir := .read, width := 1, offset := 0x58, data := 0 } = .ok (.corRd 4 .byte) := by decide
/-- The last accepted and the first rejected value of each test. -/
theorem witness_DecodeFaultOrder :
    decode 5 { dir := .read, width := 0, offset := 0, data := 0 } = .error .badWidth ∧
    decode 5 { dir := .read, width := 5, offset := 0, data := 0 } = .error .badWidth ∧
    decode 5 { dir := .read, width := 1, offset := 0x1, data := 0 } = .error .badSharedOffset ∧
    decode 5 { dir := .read, width := 1, offset := 0xF, data := 0 } = .error .badSharedOffset ∧
    decode 5 { dir := .read, width := 1, offset := 0x5F, data := 0 } = .error .badRegisterOffset ∧
    decode 5 { dir := .read, width := 1, offset := 0x60, data := 0 } = .error .channelOutOfRange ∧
    decode 5 { dir := .read, width := 1, offset := 0x11, data := 0 } = .error .badRegisterOffset := by decide
theorem witness_StepPerformsDecodedOperation :
    let s := asked 1 running (.cntWr 0 .half 5)
    s.Live ∧ s.inbox = .access (Instr.cntWr 0 .half 5).access :: [] ∧
      decode s.cfg.channelCount (Instr.cntWr 0 .half 5).access = .ok (.cntWr 0 .half 5) := by decide
theorem witness_StepRecordsDecodeFault :
    let a : Access := { dir := .write, width := 4, offset := 0x60, data := 1 }
    let s := stq 1 running [.access a, .tick]
    s.Live ∧ s.inbox = .access a :: [.tick] ∧ decode s.cfg.channelCount a = .error .channelOutOfRange := by decide
theorem witness_FaultedControllerTakesNoStep :
    (faulted [.tick]).ctrl.fault = some (.access .badWidth .read 0 8) ∧ (faulted [.tick]).inbox = [.tick] ∧
    (faulted [.access (Instr.ssrRd .word).access]).inbox = [.access (Instr.ssrRd .word).access] := by decide
theorem witness_RefusedControllerTakesNoStep :
    (refusing [.tick]).ctrl.fault = none ∧ (refusing [.tick]).ctrl.refused = some .zeroLimitRunning ∧
    (refusing [.tick]).inbox = [.tick] ∧
    (refusing [.access (Instr.ssrRd .word).access]).inbox = [.access (Instr.ssrRd .word).access] := by decide
theorem witness_OnlyResetLeavesAStop :
    (¬ (faulted [.reset]).Live ∧ ∃ t, step (faulted [.reset]) = .next t) ∧
    ¬ (refusing [.reset]).Live ∧ ∃ t, step (refusing [.reset]) = .next t :=
  ⟨⟨by decide, _, rfl⟩, by decide, _, rfl⟩
/-- A step for `NoStepRecordsReservedClockSelect` and `StepKeepsParameters`. -/
theorem witness_some_step : ∃ t, step (stq 1 running [.tick]) = .next t := ⟨_, rfl⟩
theorem witness_ResetStepLeavesResetState :
    (faulted [.reset, .tick]).cfg.wf ∧ (faulted [.reset, .tick]).inbox = .reset :: [.tick] ∧
    (refusing [.reset]).cfg.wf ∧ (refusing [.reset]).inbox = .reset :: [] := by decide
theorem witness_ResetStateReads : cfg5.wf ∧ 0 < cfg5.channelCount ∧ 4 < cfg5.channelCount := by decide
/-- A tick that counts, a tick that refuses, and a reset. -/
theorem witness_TickAndResetKeepTheEnvironment :
    ((stq 1 running [.tick, .reset]).inbox = .tick :: [.reset] ∧ ∃ t, step (stq 1 running [.tick, .reset]) = .next t) ∧
    ((stq 1 ⟨3, 0, 0, 0⟩ [.tick]).inbox = .tick :: [] ∧ ∃ t, step (stq 1 ⟨3, 0, 0, 0⟩ [.tick]) = .next t) ∧
    (faulted [.reset, .tick]).inbox = .reset :: [.tick] ∧ ∃ t, step (faulted [.reset, .tick]) = .next t :=
  ⟨⟨rfl, _, rfl⟩, ⟨rfl, _, rfl⟩, rfl, _, rfl⟩
/-- Each parameter out of its domain: N at 0 and at 33, BASE_HZ at 0, a layout with two fields on one bit. -/
theorem witness_BadConfigurationRefused :
    ∀ cfg ∈ [{ cfg5 with channelCount := 0 }, { cfg5 with channelCount := 33 }, { cfg5 with baseHz := 0 },
        { cfg5 with layout := { defaultLayout with ovf := 15 } }],
      ¬ cfg.wf ∧ ¬ (withConfig cfg [.reset]).cfg.wf ∧ (withConfig cfg [.reset]).inbox = .reset :: [] ∧
      (withConfig cfg [.reset]).ctrl.fault = none ∧ (withConfig cfg [.reset]).ctrl.refused = none := by decide
/-- N = 0 and N = 33: neither construction, nor a tick, nor an access to SSR, nor an operation. -/
theorem test_bad_configuration_takes_no_step :
    ∀ n ∈ [0, 33], State.construct { cfg5 with channelCount := n } = .refused .badConfiguration ∧
      step (withConfig { cfg5 with channelCount := n } [.tick]) = .refused .badConfiguration ∧
      step (withConfig { cfg5 with channelCount := n } [.access (Instr.ssrRd .word).access]) =
        .refused .badConfiguration ∧
      exec (.ssrWr .word 1) (withConfig { cfg5 with channelCount := n } []) = .refused .badConfiguration := by
  intro n hn
  simp only [List.mem_cons, List.not_mem_nil, or_false] at hn
  rcases hn with rfl | rfl <;> exact ⟨rfl, rfl, rfl, rfl⟩
/-- The platform's configuration is admissible, so the machine after reset runs its first operation. -/
theorem test_reset_machine_steps : ∃ t, step (State.reset.withFetchWord 16 0x4000) = .next t := ⟨_, rfl⟩
theorem witness_ResetStateIsWellFormed : cfg5.wf ∧ cfg16.wf := by decide
theorem witness_StepKeepsWellFormed : (stq 1 running [.tick]).Wf ∧ ∃ t, step (stq 1 running [.tick]) = .next t :=
  ⟨by decide, _, rfl⟩
/-- For `SsrReadCompletes`, `CsrReadCompletes`, `CntReadCompletes`, `CorReadCompletes`, `CsrWriteCompletes`,
`CntWriteCompletes` and `CorWriteCompletes`, of an enabled and of a disabled channel. -/
theorem witness_completions :
    ((st 1 running).cfg.wf ∧ (st 1 running).Live ∧ (st 1 running).ctrl.chans[0]? = some running ∧
      running.remaining ≤ running.cor ∧ (st 1 running).ctrl.enabled 0 = true) ∧
    (st 0 stopped).cfg.wf ∧ (st 0 stopped).Live ∧ (st 0 stopped).ctrl.chans[0]? = some stopped ∧
      stopped.remaining ≤ stopped.cor ∧ (st 0 stopped).ctrl.enabled 0 = false ∧ (st 0 stopped).Wf ∧
      (st 0 stopped).cfg.channelCount ≤ 5 := by decide
theorem witness_ReadsHaveNoSideEffect :
    (st 1 running).Wf ∧ (Instr.cntRd 0 .word).wf (st 1 running).cfg.channelCount ∧ (Instr.cntRd 0 .word).dir = .read ∧
    ∃ t, exec (.cntRd 0 .word) (st 1 running) = .next t := ⟨by decide, by decide, rfl, _, rfl⟩
theorem witness_NarrowReadIsLowBitsOfWordRead :
    Instr.cntRd 0 ∈ [Instr.ssrRd, .csrRd 0, .cntRd 0, .corRd 0] ∧
    ∃ u, exec (.cntRd 0 .word) (st 1 running) = .next u ∧ u.out.reply = some (.data 700#32) :=
  ⟨by simp, _, rfl, by decide⟩
/-- One word read for each clause. -/
theorem witness_NarrowWriteIsWordWriteOfMergedValue :
    (∃ u, u.out.reply = some (.data 1#32) ∧ exec (.ssrRd .word) (st 1 running) = .next u) ∧
    (∃ u, u.out.reply = some (.data 0xC020#32) ∧ exec (.csrRd 0 .word) (st 1 running) = .next u) ∧
    (∃ u, u.out.reply = some (.data 700#32) ∧ exec (.cntRd 0 .word) (st 1 running) = .next u) ∧
    ∃ u, u.out.reply = some (.data 1000#32) ∧ exec (.corRd 0 .word) (st 1 running) = .next u :=
  ⟨⟨_, by decide, rfl⟩, ⟨_, by decide, rfl⟩, ⟨_, by decide, rfl⟩, _, by decide, rfl⟩
theorem witness_WritesUseOnlyTheLowDataBits :
    (0x123#32).toNat % 2 ^ (8 * Width.byte.bytes) = (0x23#32).toNat % 2 ^ (8 * Width.byte.bytes) := by decide
/-- For `SsrWriteCompletes`: a channel that starts, one that stops, one that stays. -/
theorem witness_SsrWriteCompletes :
    ((st 0 stopped).Wf ∧ (st 0 stopped).Live ∧ (st 0 stopped).ctrl.enabled 0 = false ∧
      ssrOf (exec (.ssrWr .word 1) (st 0 stopped)) = some 1#32) ∧
    ((st 1 running).Wf ∧ (st 1 running).Live ∧ (st 1 running).ctrl.enabled 0 = true ∧
      ssrOf (exec (.ssrWr .word 0) (st 1 running)) = some 0) ∧
    ssrOf (exec (.ssrWr .word 1) (st 1 running)) = some 1#32 := by decide
theorem witness_MissingChannelFaults :
    (st 1 running).Live ∧ (st 1 running).ctrl.chans[5]? = none ∧
    Instr.csrRd 5 .half ∈ [Instr.csrRd 5 .half, .csrWr 5 .half 0, .cntRd 5 .half, .cntWr 5 .half 0, .corRd 5 .half,
      .corWr 5 .half 0] := by decide
/-- One of the three writes for each clause. -/
theorem witness_ChannelWriteFrame :
    (st 1 running).ctrl.chans[0]? = some running ∧ (∃ t, exec (.csrWr 0 .byte 3) (st 1 running) = .next t) ∧
    (∃ t, exec (.cntWr 0 .byte 3) (st 1 running) = .next t) ∧ ∃ t, exec (.corWr 0 .byte 3) (st 1 running) = .next t :=
  ⟨rfl, ⟨_, rfl⟩, ⟨_, rfl⟩, _, rfl⟩
/-- The values 0, COR and COR + 1 and one between. -/
theorem witness_CntWriteCornerCases :
    (st 1 running).Wf ∧ (st 1 running).ctrl.chans[0]? = some running ∧ (st 1 running).ctrl.enabled 0 = true ∧
    running.cor < 1001#32 ∧ 250#32 ≤ running.cor ∧ (∃ t, exec (.cntWr 0 .word 0) (st 1 running) = .next t) ∧
    (∃ t, exec (.cntWr 0 .word 250) (st 1 running) = .next t) ∧
    (∃ t, exec (.cntWr 0 .word 1000) (st 1 running) = .next t) ∧
    ∃ t, exec (.cntWr 0 .word 1001) (st 1 running) = .next t :=
  ⟨by decide, rfl, rfl, by decide, by decide, ⟨_, rfl⟩, ⟨_, rfl⟩, ⟨_, rfl⟩, _, rfl⟩
theorem witness_NarrowCntWriteOfDisabledChannel :
    (st 0 stopped).ctrl.chans[0]? = some stopped ∧ (st 0 stopped).ctrl.enabled 0 = false := by decide
theorem witness_CorWriteThenReads :
    (st 1 running).ctrl.chans[0]? = some running ∧ ∃ t, exec (.corWr 0 .half 7) (st 1 running) = .next t :=
  ⟨rfl, _, rfl⟩
/-- For `WritesAreIdempotent`, each of the three writes, twice. -/
theorem witness_WritesAreIdempotent :
    (st 1 running).Wf ∧
    (∃ t u, exec (.ssrWr .word 2) (st 1 running) = .next t ∧ exec (.ssrWr .word 2) t = .next u) ∧
    (∃ t u, exec (.cntWr 0 .word 2) (st 1 running) = .next t ∧ exec (.cntWr 0 .word 2) t = .next u) ∧
    ∃ t u, exec (.corWr 0 .byte 2) (st 1 running) = .next t ∧ exec (.corWr 0 .byte 2) t = .next u :=
  ⟨by decide, ⟨_, _, rfl, rfl⟩, ⟨_, _, rfl, rfl⟩, _, _, rfl, rfl⟩
theorem witness_NarrowCntWriteIsIdempotent :
    (st 1 running).Wf ∧ 0 < (st 1 running).cfg.channelCount ∧
    ∃ t u, exec (.cntWr 0 .byte 0xFF) (st 1 running) = .next t ∧ exec (.cntWr 0 .byte 0xFF) t = .next u :=
  ⟨by decide, by decide, _, _, rfl, rfl⟩
theorem witness_AcknowledgeTakesTwoWrites :
    let l := (st 1 running).cfg.layout
    (st 1 running).cfg.wf ∧ (st 1 running).Live ∧ (st 1 running).ctrl.chans[0]? = some running ∧
    running.cmf l = true ∧ (CsrFields.ofWord l 0x20#32).cmf = false ∧ (CsrFields.ofWord l 0x20#32).ovf = false := by decide
theorem witness_ByteCsrWriteKeepsFlags :
    (st 1 running).cfg.wf ∧ (st 1 running).cfg.layout = defaultLayout ∧
    (st 1 running).ctrl.chans[0]? = some running ∧ ∃ t, exec (.csrWr 0 .byte 0) (st 1 running) = .next t :=
  ⟨by decide, rfl, rfl, _, rfl⟩
theorem witness_SsrWriteWidthsAgree : (st 1 running).Wf ∧ (st 1 running).cfg.channelCount ≤ 8 := by decide
theorem witness_ResumeContinuesFromFrozenCount :
    (st 0 stopped).Wf ∧ (st 0 stopped).ctrl.chans[0]? = some stopped ∧ (st 0 stopped).ctrl.enabled 0 = false ∧
    (1#32).getLsbD 0 = true ∧ ∃ t, exec (.ssrWr .word 1) (st 0 stopped) = .next t :=
  ⟨by decide, rfl, rfl, rfl, _, rfl⟩

/-- The states of a tick, one for each clause: disabled, phase counting, decrement from 2, match from 1 and from 0. -/
theorem witness_TickCompletes :
    (∀ p ∈ [(0#32, stopped), (1, ⟨0x20, 1000, 300, 6⟩), (1, ⟨0x20, 1000, 2, 7⟩), (1, ⟨0x20, 1000, 1, 7⟩),
        (1, ⟨0x20, 1000, 0, 7⟩)],
      (stq p.1 p.2 [.tick]).cfg.wf ∧ (stq p.1 p.2 [.tick]).Live ∧ (stq p.1 p.2 [.tick]).inbox = .tick :: [] ∧
      (stq p.1 p.2 [.tick]).ctrl.chans[0]? = some p.2 ∧ ∀ c ∈ (stq p.1 p.2 [.tick]).ctrl.chans, c.cor ≠ 0) ∧
    ∀ i, ¬ (stq 1 running [.tick]).ctrl.TickRefusesAt (stq 1 running [.tick]).cfg.layout i :=
  ⟨by decide, (no_refusal_of_cor_ne_zero (by decide)).1⟩
theorem witness_TickRefusesZeroLimit :
    (stq 1 ⟨3, 0, 0, 0⟩ [.tick]).Live ∧ (stq 1 ⟨3, 0, 0, 0⟩ [.tick]).inbox = .tick :: [] ∧
    ∃ i, (stq 1 ⟨3, 0, 0, 0⟩ [.tick]).ctrl.TickRefusesAt (stq 1 ⟨3, 0, 0, 0⟩ [.tick]).cfg.layout i :=
  ⟨by decide, rfl, 0, rfl, _, rfl, rfl, by decide⟩
/-- A tick that is a step, and one that refuses. -/
theorem witness_DisabledChannelIgnoresTick :
    (stq 0 stopped [.tick]).inbox = .tick :: [] ∧ (stq 0 stopped [.tick]).ctrl.enabled 0 = false ∧
    (∃ t, step (stq 0 stopped [.tick]) = .next t) ∧ (stq 1 ⟨3, 0, 0, 0⟩ [.tick]).ctrl.enabled 1 = false ∧
    ∃ t, step (stq 1 ⟨3, 0, 0, 0⟩ [.tick]) = .next t := ⟨rfl, rfl, ⟨_, rfl⟩, rfl, _, rfl⟩
/-- Two machines that differ in SSR bit 1 and agree on channel 0. -/
theorem witness_TickChannelsAreIndependent :
    (stq 1 running [.tick]).ctrl.enabled 0 = (stq 3 running [.tick]).ctrl.enabled 0 ∧
    (stq 1 running [.tick]).ctrl.chans[0]? = (stq 3 running [.tick]).ctrl.chans[0]? ∧
    ∃ t1 t2, step (stq 1 running [.tick]) = .next t1 ∧ step (stq 3 running [.tick]) = .next t2 ∧
      t1.ctrl.refused = none ∧ t2.ctrl.refused = none := ⟨rfl, rfl, _, _, rfl, rfl, rfl, rfl⟩
/-- Phase 3 of 8 and decrementer 2: thirteen ticks to the match. -/
theorem witness_CompareMatchTiming :
    let c : Channel := ⟨0x20, 1000, 2, 3⟩
    let s := stq 1 c (List.replicate 13 .tick)
    s.Wf ∧ s.Live ∧ s.ctrl.enabled 0 = true ∧ s.ctrl.chans[0]? = some c ∧ s.ctrl.NoZeroLimitRunning ∧
    s.inbox = List.replicate (c.ticksToMatch s.cfg.layout) .tick ++ [] :=
  ⟨by decide, by decide, rfl, rfl, (no_refusal_of_cor_ne_zero (by decide)).2, by decide⟩
theorem witness_CountingRate :
    let c : Channel := ⟨0x20, 1000, 3, 0⟩
    let s := stq 1 c (List.replicate 16 .tick)
    s.Wf ∧ s.Live ∧ s.ctrl.enabled 0 = true ∧ s.ctrl.chans[0]? = some c ∧ s.ctrl.NoZeroLimitRunning ∧ c.psc = 0 ∧
    2 < c.remaining.toNat ∧ s.inbox = List.replicate (2 * c.div s.cfg.layout) .tick ++ [] :=
  ⟨by decide, by decide, rfl, rfl, (no_refusal_of_cor_ne_zero (by decide)).2, rfl, by decide, by decide⟩

theorem witness_InterruptLevel :
    (st 1 running).ctrl.chans[0]? = some running ∧ (st 1 running).ctrl.irq defaultLayout 0 = true ∧
    (st 1 quiet).ctrl.irq defaultLayout 0 = false := by decide
/-- A line changed by each of the three kinds of step, for `LineChangesReported` and
`OnlyCsrWriteMatchOrResetChangesALine`. -/
theorem witness_line_changes :
    (stq 1 running [.reset]).Wf ∧ changes (step (stq 1 running [.reset])) = some [0] ∧
    (asked 1 running (.csrWr 0 .word 0x20)).Wf ∧
    changes (step (asked 1 running (.csrWr 0 .word 0x20))) = some [0] ∧
    (stq 1 ⟨0x20, 1000, 1, 7⟩ [.tick]).Wf ∧ changes (step (stq 1 ⟨0x20, 1000, 1, 7⟩ [.tick])) = some [0] := by decide
/-- CMF rises on a match, and falls by a write and by a reset. -/
theorem witness_CompareMatchFlagChanges :
    quiet.cmf defaultLayout = false ∧ running.cmf defaultLayout = true ∧
    ch0 (step (stq 1 ⟨0x20, 1000, 1, 7⟩ [.tick])) = some ⟨0x8020, 1000, 1000, 0⟩ ∧
    ch0 (step (asked 0 ⟨0x8020, 1000, 300, 0⟩ (.csrWr 0 .word 0x20))) = some ⟨0x4020, 1000, 300, 0⟩ ∧
    ch0 (step (stq 1 running [.reset])) = some (Channel.reset cfg5) := by decide
/-- OVF rises with the acknowledge, and falls by the next write and by a reset. -/
theorem witness_OverflowFlagChanges :
    (asked 0 ⟨0x8020, 1000, 300, 0⟩ (.csrWr 0 .word 0x20)).Wf ∧
    ch0 (step (asked 0 ⟨0x8020, 1000, 300, 0⟩ (.csrWr 0 .word 0x20))) = some ⟨0x4020, 1000, 300, 0⟩ ∧
    (asked 0 ⟨0x4020, 1000, 300, 0⟩ (.csrWr 0 .word 0x20)).Wf ∧
    ch0 (step (asked 0 ⟨0x4020, 1000, 300, 0⟩ (.csrWr 0 .word 0x20))) = some ⟨0x20, 1000, 300, 0⟩ ∧
    ch0 (step (stq 1 running [.reset])) = some (Channel.reset cfg5) := by decide
/-- A channel stopped by an SSR write, and by a reset. -/
theorem witness_EnableChangesOnlyBySsrWrite :
    (asked 1 running (.ssrWr .byte 0)).ctrl.enabled 0 = true ∧
    ssrOf (step (asked 1 running (.ssrWr .byte 0))) = some 0 ∧ ssrOf (step (stq 1 running [.reset])) = some 0 := by decide
/-- COR changed by a COR write, and by a reset. -/
theorem witness_CompareRegisterChangesOnlyByCorWrite :
    ch0 (step (asked 1 running (.corWr 0 .word 7))) = some ⟨0xC020, 7, 7, 0⟩ ∧
    ch0 (step (stq 1 running [.reset])) = some (Channel.reset cfg5) ∧ running.cor ≠ 7 ∧ running.cor ≠ resetCor := by decide
theorem witness_SaveRestoreKeepsTheController : (st 1 running).Wf ∧ (st 1 running).Live := by decide
/-- An access on the map and one off it. -/
theorem witness_AccessFaultsExactlyOffTheMap :
    (asked 1 running (.corRd 4 .byte)).Wf ∧ (asked 1 running (.corRd 4 .byte)).Live ∧
    (Instr.corRd 4 .byte).access.OnMap 5 ∧ ¬ (Instr.corRd 5 .byte).access.OnMap 5 := by
  refine ⟨by decide, by decide, ⟨.inl rfl, .inr ⟨4, by decide, .inr (.inr rfl)⟩⟩, ?_⟩
  rintro ⟨-, h | ⟨i, hi, h⟩⟩
  · exact absurd h (by decide)
  · have ho : (Instr.corRd 5 .byte).access.offset = 0x68 := rfl
    omega
theorem witness_BenignRequestsRunSafely :
    let rs : List Request := [.access (Instr.corWr 0 .word 1).access, .tick, .reset]
    (stq 1 running rs).Wf ∧ (stq 1 running rs).Live ∧ (∀ c ∈ (stq 1 running rs).ctrl.chans, c.cor ≠ 0) ∧
    (stq 1 running rs).inbox = rs ++ [] ∧ ∀ r ∈ rs, BenignRequest (stq 1 running rs).cfg.channelCount r := by
  refine ⟨by decide, by decide, by decide, rfl, ?_⟩
  intro r hr
  simp only [List.mem_cons, List.not_mem_nil, or_false] at hr
  rcases hr with rfl | rfl | rfl
  · refine ⟨.corWr 0 .word 1, rfl, ?_⟩
    intro ch w v h
    cases h
    decide
  · trivial
  · trivial

end Sys2Proof.Tests
end

section
/-! The divisor table and the counting frequency of a channel (00_scope.md R15). -/

namespace Sys2Proof.Machine

@[simp] theorem divisor_zero : divisor 0#2 = 8 := rfl
@[simp] theorem divisor_one : divisor 1#2 = 32 := rfl
@[simp] theorem divisor_two : divisor 2#2 = 128 := rfl
@[simp] theorem divisor_three : divisor 3#2 = 1 := rfl

/-- A channel counts at the base frequency divided by the divisor its CKS field selects (00_scope.md R15). -/
theorem Channel.rate_eq_baseHz_div_divisor (cfg : Config) (c : Channel) :
    c.rate cfg = (cfg.baseHz : Rat) / (divisor (c.cks cfg.layout) : Rat) := rfl

/-- Settles O42: one equation per row of the divisor table, and the equation of the counting frequency. -/
theorem divisorTable : Obligations.DivisorTable :=
  ⟨divisor_zero, divisor_one, divisor_two, divisor_three, Channel.rate_eq_baseHz_div_divisor⟩

end Sys2Proof.Machine
end

section
/-! The register map of the decoder (20_memory.md R51, R53, R54). -/

namespace Sys2Proof

section OperationParts
variable (dir : Dir) (ch : Nat) (s : Slot) (w : Width) (v : Word)

@[simp] theorem sharedOp_offset : (sharedOp dir w v).offset = 0 := by cases dir <;> rfl
@[simp] theorem sharedOp_width : (sharedOp dir w v).width = w := by cases dir <;> rfl
@[simp] theorem sharedOp_dir : (sharedOp dir w v).dir = dir := by cases dir <;> rfl
@[simp] theorem channelOp_offset : (channelOp dir ch s w v).offset = channelOffset ch s := by
  cases dir <;> cases s <;> rfl
@[simp] theorem channelOp_width : (channelOp dir ch s w v).width = w := by cases dir <;> cases s <;> rfl
@[simp] theorem channelOp_dir : (channelOp dir ch s w v).dir = dir := by cases dir <;> cases s <;> rfl

end OperationParts

/-- The numbers of bytes an access can have on the register map (20_memory.md R53). -/
theorem Width.exists_eq_bytes {n : Nat} : (∃ w : Width, n = w.bytes) ↔ n = 1 ∨ n = 2 ∨ n = 4 := by
  constructor
  · rintro ⟨w, rfl⟩
    cases w <;> simp [Width.bytes]
  · rintro (rfl | rfl | rfl)
    exacts [⟨.byte, rfl⟩, ⟨.half, rfl⟩, ⟨.word, rfl⟩]

/-- The offsets of the registers of channel `ch` (20_memory.md R51). -/
theorem exists_eq_channelOffset {off ch : Nat} : (∃ s, off = channelOffset ch s) ↔
    off = 0x10 * (ch + 1) ∨ off = 0x10 * (ch + 1) + 0x4 ∨ off = 0x10 * (ch + 1) + 0x8 := by
  constructor
  · rintro ⟨s, rfl⟩
    cases s <;> simp [channelOffset, Slot.offset]
  · rintro (rfl | rfl | rfl)
    exacts [⟨.csr, rfl⟩, ⟨.cnt, rfl⟩, ⟨.cor, rfl⟩]

/-- The register map in the words of the decoder: widths and register slots (20_memory.md R51, R53). -/
theorem Access.onMap_iff {n : Nat} {a : Access} : a.OnMap n ↔
    ∃ w : Width, a.width = w.bytes ∧ (a.offset = 0 ∨ ∃ ch s, ch < n ∧ a.offset = channelOffset ch s) := by
  simp only [Access.OnMap, ← Width.exists_eq_bytes, ← exists_eq_channelOffset, exists_and_left, exists_and_right]

/-- The decoder accepts exactly the accesses on the register map (20_memory.md R54). -/
theorem decode_isOk_iff_onMap {n : Nat} {a : Access} : (∃ i, decode n a = .ok i) ↔ a.OnMap n := by
  rw [Access.onMap_iff]
  constructor
  · rintro ⟨i, hi⟩
    obtain ⟨w, hw, ⟨h0, -⟩ | ⟨ch, s, hch, ho, -⟩⟩ := decode_eq_ok.1 hi
    · exact ⟨w, hw, .inl h0⟩
    · exact ⟨w, hw, .inr ⟨ch, s, hch, ho⟩⟩
  · rintro ⟨w, hw, h0 | ⟨ch, s, hch, ho⟩⟩
    · exact ⟨_, decode_eq_ok.2 ⟨w, hw, .inl ⟨h0, rfl⟩⟩⟩
    · exact ⟨_, decode_eq_ok.2 ⟨w, hw, .inr ⟨ch, s, hch, ho, rfl⟩⟩⟩

/-- An accepted access addresses the register at its own offset, whatever its width (20_memory.md R54). -/
theorem decode_ok_names_access {n : Nat} {a : Access} {i : Instr} (h : decode n a = .ok i) :
    i.offset = a.offset ∧ i.width.bytes = a.width ∧ i.dir = a.dir := by
  obtain ⟨w, hw, ⟨h0, rfl⟩ | ⟨ch, s, -, ho, rfl⟩⟩ := decode_eq_ok.1 h
  · simp [h0, hw]
  · simp [ho, hw]

/-- Settles O3, from what the decoder can answer (`decode_eq_ok`). -/
theorem decodeAcceptsTheRegisterMap : Obligations.DecodeAcceptsTheRegisterMap :=
  fun _ _ => ⟨decode_isOk_iff_onMap, fun _ => decode_ok_names_access⟩

end Sys2Proof
end

section
/-! What each operation answers on a working controller that has its channel, and what the answer of a read tells of
the machine (41_channel_registers.md R131 to R144, 42_controller.md R175, R176). -/

namespace Sys2Proof.Machine

section Completion
variable {s : State} {ch : Nat} {c : Channel} {w : Width} {v : Word} (hl : s.Live)
include hl

theorem exec_ssrRd_of_live : exec (.ssrRd w) s = .next (s.answer s.ctrl.ssr w) := whenLive_of_live hl

theorem exec_ssrWr_of_live : exec (.ssrWr w v) s = .next (s.nextDraw.commit
    (s.ctrl.writeSsr s.cfg.channelCount s.cfg.layout s.draws (merge s.ctrl.ssr v w)) (some .written)) :=
  whenLive_of_live hl

variable (hc : s.ctrl.chans[ch]? = some c)
include hc

theorem exec_csrRd_of_some : exec (.csrRd ch w) s = .next (s.answer c.csr w) := onChannel_of_some hl hc

theorem exec_csrWr_of_some : exec (.csrWr ch w v) s = .next (s.nextDraw.writeChannel ch
    (c.setCsr s.cfg.layout s.draws ch (s.ctrl.enabled ch) (csrAfterWrite s.cfg.layout c.csr (merge c.csr v w)))) :=
  onChannel_of_some hl hc

theorem exec_cntRd_of_some : exec (.cntRd ch w) s = .next (s.answer (c.count (s.ctrl.enabled ch)) w) :=
  onChannel_of_some hl hc

theorem exec_cntWr_of_some : exec (.cntWr ch w v) s =
    .next (s.writeChannel ch (c.setCount (merge (c.count (s.ctrl.enabled ch)) v w))) :=
  onChannel_of_some hl hc

theorem exec_corRd_of_some : exec (.corRd ch w) s = .next (s.answer c.cor w) := onChannel_of_some hl hc

theorem exec_corWr_of_some : exec (.corWr ch w v) s = .next (s.writeChannel ch (c.setLimit (merge c.cor v w))) :=
  onChannel_of_some hl hc

end Completion

section Answered
variable {s u : State} {ch : Nat} {w : Width} {r : Word}

/-- A channel read that answers data ran on a channel: the fault of a missing channel answers nothing. -/
theorem onChannel_answer {a : Access} {f : Channel → Word}
    (h : onChannel s ch a (fun c => .next (s.answer (f c) w)) = .next u) (hr : u.out.reply = some (.data r)) :
    s.Live ∧ ∃ c, s.ctrl.chans[ch]? = some c ∧ r = narrowRead (f c) w := by
  obtain ⟨hl, ⟨c, hc, hu⟩ | ⟨-, rfl⟩⟩ := onChannel_eq_next h
  · cases hu
    cases hr
    exact ⟨hl, c, hc, rfl⟩
  · cases hr

variable (hr : u.out.reply = some (.data r))
include hr

theorem exec_ssrRd_answer (h : exec (.ssrRd w) s = .next u) : s.Live ∧ r = narrowRead s.ctrl.ssr w := by
  obtain ⟨hl, hu⟩ := whenLive_eq_next.1 h
  cases hu
  cases hr
  exact ⟨hl, rfl⟩

theorem exec_csrRd_answer (h : exec (.csrRd ch w) s = .next u) :
    s.Live ∧ ∃ c, s.ctrl.chans[ch]? = some c ∧ r = narrowRead c.csr w := onChannel_answer h hr

theorem exec_cntRd_answer (h : exec (.cntRd ch w) s = .next u) :
    s.Live ∧ ∃ c, s.ctrl.chans[ch]? = some c ∧ r = narrowRead (c.count (s.ctrl.enabled ch)) w :=
  onChannel_answer h hr

theorem exec_corRd_answer (h : exec (.corRd ch w) s = .next u) :
    s.Live ∧ ∃ c, s.ctrl.chans[ch]? = some c ∧ r = narrowRead c.cor w := onChannel_answer h hr

end Answered

end Sys2Proof.Machine
end

section
/-! Narrow accesses against word accesses (20_memory.md R55, R56). -/

namespace Sys2Proof.Machine

/-- A 4-byte read answers the register's read value whole (20_memory.md R55). -/
@[simp] theorem narrowRead_word (full : Word) : narrowRead full .word = full := by
  apply BitVec.eq_of_toNat_eq
  rw [narrowRead_toNat]
  exact Nat.mod_eq_of_lt full.isLt

/-- A narrow read answers the low bits of what a 4-byte read answers (20_memory.md R55). -/
theorem narrowRead_toNat_eq_word_mod (full : Word) (w : Width) :
    (narrowRead full w).toNat = (narrowRead full .word).toNat % 2 ^ (8 * w.bytes) := by
  rw [narrowRead_toNat, narrowRead_word]

/-- The merged value of every width is the one the spec writes with a mask (20_memory.md R56): the mask of a 4-byte
write covers the register, so that the data is taken whole. -/
theorem merge_eq_masked (full v : Word) (w : Width) :
    merge full v w = (full &&& ~~~ lowMask (8 * w.bytes)) ||| (v &&& lowMask (8 * w.bytes)) := by
  cases w with
  | byte => rfl
  | half => rfl
  | word =>
    have hmask : lowMask (8 * Width.word.bytes) = BitVec.allOnes 32 := by decide
    rw [merge_word, hmask, BitVec.not_allOnes, BitVec.and_zero, BitVec.zero_or, BitVec.and_allOnes]

/-- Settles O24: the word read answers only where the narrow read does, and answers the register's whole read value. -/
theorem narrowReadIsLowBitsOfWordRead : Obligations.NarrowReadIsLowBitsOfWordRead := by
  intro s u ch w full rd hrd h hr
  simp only [List.mem_cons, List.not_mem_nil, or_false] at hrd
  obtain rfl | rfl | rfl | rfl := hrd
  · obtain ⟨hl, rfl⟩ := exec_ssrRd_answer hr h
    exact ⟨_, _, exec_ssrRd_of_live hl, rfl, narrowRead_toNat_eq_word_mod _ _⟩
  · obtain ⟨hl, c, hc, rfl⟩ := exec_csrRd_answer hr h
    exact ⟨_, _, exec_csrRd_of_some hl hc, rfl, narrowRead_toNat_eq_word_mod _ _⟩
  · obtain ⟨hl, c, hc, rfl⟩ := exec_cntRd_answer hr h
    exact ⟨_, _, exec_cntRd_of_some hl hc, rfl, narrowRead_toNat_eq_word_mod _ _⟩
  · obtain ⟨hl, c, hc, rfl⟩ := exec_corRd_answer hr h
    exact ⟨_, _, exec_corRd_of_some hl hc, rfl, narrowRead_toNat_eq_word_mod _ _⟩

/-- Settles O25: the word read shows that the write runs on its register and what it merges with, and the 4-byte write
of the masked value takes that value whole. -/
theorem narrowWriteIsWordWriteOfMergedValue : Obligations.NarrowWriteIsWordWriteOfMergedValue := by
  intro s u ch w v full mask m hr
  have hm : m = merge full v w := (merge_eq_masked full v w).symm
  refine ⟨fun h => ?_, fun h => ?_, fun h => ?_, fun h => ?_, ?_⟩
  · obtain ⟨hl, rfl⟩ := exec_ssrRd_answer hr h
    rw [exec_ssrWr_of_live hl, exec_ssrWr_of_live hl, hm, narrowRead_word, merge_word]
  · obtain ⟨hl, c, hc, rfl⟩ := exec_csrRd_answer hr h
    rw [exec_csrWr_of_some hl hc, exec_csrWr_of_some hl hc, hm, narrowRead_word, merge_word]
  · obtain ⟨hl, c, hc, rfl⟩ := exec_cntRd_answer hr h
    rw [exec_cntWr_of_some hl hc, exec_cntWr_of_some hl hc, hm, narrowRead_word, merge_word]
  · obtain ⟨hl, c, hc, rfl⟩ := exec_corRd_answer hr h
    rw [exec_corWr_of_some hl hc, exec_corWr_of_some hl hc, hm, narrowRead_word, merge_word]
  · rintro rfl
    rw [hm, merge_word]

end Sys2Proof.Machine
end

section
/-! A base tick that no channel refuses, and what it does to each channel (40_countdown_clock.md R104 to R107, R117). -/

namespace Sys2Proof.Machine

/-- A decrementer that a prescaled tick matches on is 0 or 1 (40_countdown_clock.md R106). -/
theorem word_le_one_iff {r : Word} : r ≤ 1 ↔ ¬ 2 ≤ r.toNat := by
  bv_omega

/-- The range of a decrement from 2 or more (40_countdown_clock.md R106). -/
theorem word_sub_one_range {r m : Word} (h2 : 2 ≤ r.toNat) (hm : r ≤ m) :
    1 ≤ (r - 1).toNat ∧ (r - 1).toNat ≤ m.toNat - 1 := by
  bv_omega

section ChannelTick
variable {l : CsrLayout} {c c' : Channel} (h : c.tick l = some c')
include h

/-- Below the wrap of the prescaler a tick only counts in it (40_countdown_clock.md R104). -/
theorem Channel.tick_of_psc_lt (hp : c.psc + 1 < c.div l) : c' = { c with psc := c.psc + 1 } := by
  obtain ⟨-, hc'⟩ | ⟨hw, -⟩ | ⟨hw, -⟩ := Channel.tick_cases h
  · exact hc'
  · exact absurd hp hw
  · exact absurd hp hw

variable (hp : ¬ c.psc + 1 < c.div l)
include hp

/-- At the wrap of the prescaler a decrementer of 2 or more counts down by one (40_countdown_clock.md R106). -/
theorem Channel.tick_of_two_le (h2 : 2 ≤ c.remaining.toNat) :
    c' = { c with psc := 0, remaining := c.remaining - 1 } := by
  obtain ⟨hlt, -⟩ | ⟨-, -, h1, -⟩ | ⟨-, -, -, hc'⟩ := Channel.tick_cases h
  · exact absurd hlt hp
  · exact absurd h2 (word_le_one_iff.1 h1)
  · exact hc'

/-- At the wrap of the prescaler a decrementer of 0 or 1 is a compare match (40_countdown_clock.md R106, R107). -/
theorem Channel.tick_of_not_two_le (h2 : ¬ 2 ≤ c.remaining.toNat) :
    c' = ({ c with psc := 0 } : Channel).compareMatch l := by
  obtain ⟨hlt, -⟩ | ⟨-, -, -, hc'⟩ | ⟨-, -, h1, -⟩ := Channel.tick_cases h
  · exact absurd hlt hp
  · exact hc'
  · exact absurd (word_le_one_iff.2 h2) h1

end ChannelTick

section ControllerTick
variable {l : CsrLayout} {k : Controller} {i : Nat} {c : Channel}

/-- A disabled channel ignores base ticks (40_countdown_clock.md R117). -/
theorem tickIfEnabled_of_disabled (h : k.enabled i = false) : tickIfEnabled l k.ssr i c = some c := by
  have hbit : k.ssr.getLsbD i = false := h
  simp [tickIfEnabled, hbit]

/-- An enabled channel takes each base tick (40_countdown_clock.md R104). -/
theorem tickIfEnabled_of_enabled (h : k.enabled i = true) : tickIfEnabled l k.ssr i c = c.tick l :=
  if_pos h

/-- A base tick refuses a channel of a controller exactly where the channel is enabled, its COR is 0 and its prescaler
wraps (40_countdown_clock.md R109). -/
theorem tickIfEnabled_eq_none :
    tickIfEnabled l k.ssr i c = none ↔ k.enabled i = true ∧ c.cor = 0 ∧ ¬ c.psc + 1 < c.div l := by
  cases he : k.enabled i with
  | false => simp [tickIfEnabled_of_disabled he]
  | true => rw [tickIfEnabled_of_enabled he, Channel.tick_eq_none]; tauto

/-- A base tick on a controller's channels refuses exactly when it refuses on one of them (40_countdown_clock.md
R104, R109). -/
theorem tickFrom_eq_none_iff_refuses :
    tickFrom l k.ssr 0 k.chans = none ↔ ∃ i, k.TickRefusesAt l i := by
  simp only [tickFrom_eq_none, Nat.zero_add, tickIfEnabled_eq_none, Controller.TickRefusesAt]
  constructor
  · rintro ⟨i, c, hc, he, h0, hp⟩
    exact ⟨i, he, c, hc, h0, hp⟩
  · rintro ⟨i, he, c, hc, h0, hp⟩
    exact ⟨i, c, hc, he, h0, hp⟩

/-- A channel after a base tick is the channel before it, ticked; where there was none, there is none. -/
theorem tickFrom_getElem? {cs' : List Channel} (h : tickFrom l k.ssr 0 k.chans = some cs') (i : Nat) :
    cs'[i]? = k.chans[i]?.bind (tickIfEnabled l k.ssr i) := by
  obtain ⟨hlen, hall⟩ := tickFrom_eq_some.1 h
  cases hc : k.chans[i]? with
  | none => simpa [hlen] using hc
  | some c =>
    obtain ⟨c', hc', ht⟩ := hall i c hc
    rw [hc', Option.bind_some, ← ht, Nat.zero_add]

/-- A base tick leaves a disabled channel in place (40_countdown_clock.md R117). -/
theorem tickFrom_getElem?_of_disabled {cs' : List Channel} (h : tickFrom l k.ssr 0 k.chans = some cs')
    (hd : k.enabled i = false) : cs'[i]? = k.chans[i]? := by
  have hid : tickIfEnabled l k.ssr i = some := funext fun _ => tickIfEnabled_of_disabled hd
  rw [tickFrom_getElem? h, hid, Option.bind_fun_some]

end ControllerTick

/-- A step that takes a placed base tick performs it on the machine without the request. -/
theorem step_of_tick {s : State} {rest : List Request} (h : s.inbox = .tick :: rest) :
    step s = tickEvent { s with inbox := rest } := step_of_cons h

/-- A base tick of a working controller that no channel refuses is a step on all channels at once
(40_countdown_clock.md R104). -/
theorem tickEvent_of_not_refuses {s : State} (hl : s.Live) (hno : ∀ i, ¬ s.ctrl.TickRefusesAt s.cfg.layout i) :
    ∃ cs, tickFrom s.cfg.layout s.ctrl.ssr 0 s.ctrl.chans = some cs ∧
      tickEvent s = .next (s.commit { s.ctrl with chans := cs } none) := by
  cases hcs : tickFrom s.cfg.layout s.ctrl.ssr 0 s.ctrl.chans with
  | none =>
    obtain ⟨i, hi⟩ := tickFrom_eq_none_iff_refuses.1 hcs
    exact absurd hi (hno i)
  | some cs => exact ⟨cs, rfl, by rw [tickEvent, whenLive_of_live hl, hcs]⟩

/-- Settles O43: the tick is a step on all channels at once, and each clause is one case of a channel's tick. -/
theorem tickCompletes : Obligations.TickCompletes := by
  intro s rest hw hl hin hno l
  obtain ⟨cs, hcs, ht⟩ := tickEvent_of_not_refuses (s := { s with inbox := rest }) hl hno
  obtain ⟨hlen, hall⟩ := tickFrom_eq_some.1 hcs
  refine ⟨_, (step_of_tick hin).trans ht, rfl, hl, rfl, hlen, fun i c hc => ?_⟩
  obtain ⟨c', hc', htick⟩ := hall i c hc
  rw [Nat.zero_add] at htick
  have tick_of_enabled (he : s.ctrl.enabled i = true) : c.tick l = some c' :=
    (tickIfEnabled_of_enabled he).symm.trans htick
  refine ⟨c', hc', fun hd => ?disabled, fun he hp => ?counting, fun he hp h2 => ?decrement,
    fun he hp h2 => ?reload⟩
  case disabled => exact Option.some.inj (htick.symm.trans (tickIfEnabled_of_disabled hd))
  case counting => exact Channel.tick_of_psc_lt (tick_of_enabled he) hp
  case decrement =>
    obtain rfl := Channel.tick_of_two_le (tick_of_enabled he) hp h2
    exact ⟨rfl, word_sub_one_range h2⟩
  case reload =>
    obtain rfl := Channel.tick_of_not_two_le (tick_of_enabled he) hp h2
    obtain ⟨-, -, hlayout⟩ := hw
    exact ⟨rfl, rfl, rfl, Channel.compareMatch_cmf hlayout _, Channel.compareMatch_ovf hlayout _,
      Channel.compareMatch_cmr hlayout _, Channel.compareMatch_cks hlayout _, or_cmfBit_implemented hlayout⟩

/-- Settles O45: a counting tick leaves the disabled channel in place, and a refused one leaves every channel. -/
theorem disabledChannelIgnoresTick : Obligations.DisabledChannelIgnoresTick := by
  intro s t rest i hin hd h
  rw [step_of_tick hin] at h
  obtain ⟨-, ⟨cs, hcs, rfl⟩ | ⟨-, rfl⟩⟩ := tickEvent_cases h
  · exact tickFrom_getElem?_of_disabled hcs hd
  · rfl

end Sys2Proof.Machine
end

section
/-! The completion of the channel register reads (41_channel_registers.md R131, R139, R143). -/

namespace Sys2Proof.Machine

/-- An answered read leaves what lies beside the controller (20_memory.md R60). -/
theorem State.keeps_answer (s : State) (full : Word) (w : Width) : s.Keeps (s.answer full w) :=
  ⟨State.answer_cfg .., State.answer_inbox .., State.answer_envSeq ..⟩

/-- Bits that are 0 in the register are 0 in a read of any width (20_memory.md R55). -/
theorem narrowRead_and_eq_zero {full mask : Word} (h : full &&& mask = 0) (w : Width) :
    narrowRead full w &&& mask = 0 := by
  rw [narrowRead, BitVec.and_assoc, BitVec.and_comm (lowMask _), ← BitVec.and_assoc, h]
  exact BitVec.zero_and

/-- The elapsed count as a number: with the decrementer at most COR the subtraction borrows nothing
(41_channel_registers.md R139). -/
theorem Channel.count_toNat {c : Channel} (h : c.remaining ≤ c.cor) (enabled : Bool) :
    (c.count enabled).toNat = if enabled then c.cor.toNat - c.remaining.toNat else 0 := by
  cases enabled with
  | false => rfl
  | true => exact BitVec.toNat_sub_of_le h

/-- Settles O20: the reserved bits are 0 in the stored CSR, and so in its low bits. -/
theorem csrReadCompletes : Obligations.CsrReadCompletes := by
  intro s ch w c hl hc
  refine ⟨_, exec_csrRd_of_some hl hc, rfl, s.keeps_answer _ _, rfl, _, rfl, narrowRead_toNat _ _, fun hw => ?_⟩
  obtain ⟨hreserved, -⟩ := hw.channel_wf hc
  exact narrowRead_and_eq_zero hreserved w

/-- Settles O21: the answer is the low bits of the elapsed count (`Channel.count_toNat`). -/
theorem cntReadCompletes : Obligations.CntReadCompletes := by
  intro s ch w c hl hc hle
  refine ⟨_, exec_cntRd_of_some hl hc, rfl, s.keeps_answer _ _, rfl, _, rfl, ?_⟩
  rw [narrowRead_toNat, Channel.count_toNat hle]

/-- Settles O22: the answer is the low bits of COR, read without the count. -/
theorem corReadCompletes : Obligations.CorReadCompletes := by
  intro s ch w c hl hc
  exact ⟨_, exec_corRd_of_some hl hc, rfl, s.keeps_answer _ _, rfl, _, rfl, narrowRead_toNat _ _⟩

end Sys2Proof.Machine
end

section
/-! The start/stop register: what a read of it answers, and which steps change it (42_controller.md R175 to R177). -/

namespace Sys2Proof.Machine

/-- Of the operations only a write of SSR changes it: a read and a fault leave the controller's registers, and a channel
write replaces one channel (42_controller.md R177). -/
theorem exec_ssr_eq_or_ssrWr {i : Instr} {s t : State} (h : exec i s = .next t) :
    t.ctrl.ssr = s.ctrl.ssr ∨ ∃ w v, i = .ssrWr w v := by
  obtain ⟨-, ⟨full, w, rfl⟩ | ⟨w, v, hi, -⟩ | ⟨ch, w, v, c, -, -, rfl⟩ | ⟨ch, w, v, c, -, -, rfl⟩ |
    ⟨ch, w, v, c, -, -, rfl⟩ | rfl⟩ := exec_cases h
  case inr.inl => exact .inr ⟨w, v, hi⟩
  all_goals exact .inl rfl

/-- Of the bus accesses only one that decodes to a write of SSR changes it; an access that faults does not
(42_controller.md R177). -/
theorem accessEvent_ssr_eq_or_ssrWr {a : Access} {s t : State} (h : accessEvent a s = .next t) :
    t.ctrl.ssr = s.ctrl.ssr ∨ ∃ w v, decode s.cfg.channelCount a = .ok (.ssrWr w v) := by
  obtain ⟨-, ⟨i, hi, hexec⟩ | ⟨kind, -, rfl⟩⟩ := accessEvent_cases h
  · obtain hssr | ⟨w, v, rfl⟩ := exec_ssr_eq_or_ssrWr hexec
    · exact .inl hssr
    · exact .inr ⟨w, v, hi⟩
  · exact .inl rfl

/-- A base tick leaves SSR, whether its channels count, match or refuse (42_controller.md R177). -/
theorem tickEvent_ssr {s t : State} (h : tickEvent s = .next t) : t.ctrl.ssr = s.ctrl.ssr := by
  obtain ⟨-, ⟨cs, -, rfl⟩ | ⟨-, rfl⟩⟩ := tickEvent_cases h
  · rfl
  · rfl

/-- A step that changes SSR is a reset or a write of SSR (42_controller.md R177). -/
theorem step_ssr_changes {s t : State} (h : step s = .next t) (hssr : t.ctrl.ssr ≠ s.ctrl.ssr) :
    s.takeRequest.1 = .reset ∨
      ∃ a w v, s.takeRequest.1 = .access a ∧ decode s.cfg.channelCount a = .ok (.ssrWr w v) := by
  rw [← s.takeRequest_ctrl] at hssr
  rw [← s.takeRequest_cfg]
  obtain ⟨a, ha, haccess⟩ | ⟨-, htick⟩ | ⟨hreset, -⟩ := step_cases h
  · obtain ⟨w, v, hdecode⟩ := (accessEvent_ssr_eq_or_ssrWr haccess).resolve_left hssr
    exact .inr ⟨a, w, v, ha, hdecode⟩
  · exact absurd (tickEvent_ssr htick) hssr
  · exact .inl hreset

/-- Settles O54: a channel's enable is its bit of SSR, so a step that changes it changes SSR. -/
theorem enableChangesOnlyBySsrWrite : Obligations.EnableChangesOnlyBySsrWrite := by
  intro s t i h henabled
  refine step_ssr_changes h fun hssr => henabled ?_
  rw [Controller.enabled, Controller.enabled, hssr]

/-- Settles O19: the answer is the low bits of SSR, whose bits N..31 are 0 on a well-formed machine. -/
theorem ssrReadCompletes : Obligations.SsrReadCompletes := by
  intro s w hl
  refine ⟨_, exec_ssrRd_of_live hl, rfl, s.keeps_answer _ _, rfl, _, rfl, narrowRead_toNat _ _, fun hw j hj => ?_⟩
  rw [narrowRead_getLsbD, hw.ssr_high hj, Bool.false_and]

end Sys2Proof.Machine
end

section
/-! The faults a step can leave recorded: only those an access raises (60_exceptions.md R200, R203). -/

namespace Sys2Proof.Machine

/-- The one fault an operation can record is that of an index beyond the channel array (42_controller.md R173, R174). -/
theorem exec_fault {i : Instr} {s t : State} (h : exec i s = .next t) :
    t.ctrl.fault = none ∨ t.ctrl.fault = some (faultOf .channelOutOfRange i.access) := by
  obtain ⟨⟨-, hfault, -⟩, ⟨full, w, rfl⟩ | ⟨w, v, -, rfl⟩ | ⟨ch, w, v, c, -, -, rfl⟩ | ⟨ch, w, v, c, -, -, rfl⟩ |
    ⟨ch, w, v, c, -, -, rfl⟩ | rfl⟩ := exec_cases h
  case inr.inr.inr.inr.inr => exact .inr rfl
  all_goals exact .inl hfault

/-- A fault recorded after a bus access is of a kind that accesses raise: by the decode, or by the operation it selects
(42_controller.md R173). -/
theorem accessEvent_fault {a : Access} {s t : State} (h : accessEvent a s = .next t) :
    t.ctrl.fault = none ∨ ∃ kind b, t.ctrl.fault = some (faultOf kind b) := by
  obtain ⟨-, ⟨i, -, hexec⟩ | ⟨kind, -, rfl⟩⟩ := accessEvent_cases h
  · exact (exec_fault hexec).imp_right fun hfault => ⟨_, _, hfault⟩
  · exact .inr ⟨kind, a, rfl⟩

/-- A base tick records no fault: a channel that cannot tick is a refusal (40_countdown_clock.md R109). -/
theorem tickEvent_fault {s t : State} (h : tickEvent s = .next t) : t.ctrl.fault = none := by
  obtain ⟨⟨-, hfault, -⟩, ⟨cs, -, rfl⟩ | ⟨-, rfl⟩⟩ := tickEvent_cases h
  · exact hfault
  · exact hfault

/-- A reset leaves no fault recorded (70_reset_and_hazards.md R230). -/
theorem resetEvent_fault {s t : State} (h : resetEvent s = .next t) : t.ctrl.fault = none := by
  obtain ⟨-, rfl⟩ := resetEvent_cases h
  rfl

/-- Whatever a step starts from, a fault recorded after it is one an access raised (60_exceptions.md R200). -/
theorem step_fault {s t : State} (h : step s = .next t) :
    t.ctrl.fault = none ∨ ∃ kind a, t.ctrl.fault = some (faultOf kind a) := by
  obtain ⟨a, -, haccess⟩ | ⟨-, htick⟩ | ⟨-, hreset⟩ := step_cases h
  · exact accessEvent_fault haccess
  · exact .inl (tickEvent_fault htick)
  · exact .inl (resetEvent_fault hreset)

/-- A fault that an access raises is not of the kind `ReservedClockSelect` (60_exceptions.md R200). -/
theorem faultOf_ne_reservedClockSelect (kind : AccessFault) (a : Access) (i : Nat) :
    faultOf kind a ≠ .reservedClockSelect i := nofun

/-- Settles O11: after a step no fault is recorded, or one that an access raised (`step_fault`). -/
theorem noStepRecordsReservedClockSelect : Obligations.NoStepRecordsReservedClockSelect := by
  intro s t i h hreserved
  obtain hnone | ⟨kind, a, hfault⟩ := step_fault h
  · exact absurd (hnone.symm.trans hreserved) nofun
  · exact faultOf_ne_reservedClockSelect kind a i (Option.some.inj (hfault.symm.trans hreserved))

end Sys2Proof.Machine
end

section
/-! The reset step and the state it leaves (70_reset_and_hazards.md R230, 10_state.md R39). -/

namespace Sys2Proof.Machine

/-- A reset of a machine with admissible parameters constructs the controller anew, whatever the machine records
(70_reset_and_hazards.md R230). -/
theorem resetEvent_of_wf {s : State} (h : s.cfg.wf) :
    resetEvent s = .next (s.commit (Controller.reset s.cfg) none) := whenAdmissible_of_wf h

section ResetController
variable {cfg : Config}

@[simp] theorem Controller.reset_ssr : (Controller.reset cfg).ssr = 0 := rfl
@[simp] theorem Controller.reset_fault : (Controller.reset cfg).fault = none := rfl
@[simp] theorem Controller.reset_refused : (Controller.reset cfg).refused = none := rfl

/-- The controller at reset has N channels (42_controller.md R170). -/
@[simp] theorem Controller.reset_chans_length : (Controller.reset cfg).chans.length = cfg.channelCount :=
  List.length_replicate

/-- Every channel of the controller at reset is the channel of 10_state.md R39. -/
theorem Controller.eq_reset_of_mem_chans {c : Channel} (h : c ∈ (Controller.reset cfg).chans) :
    c = Channel.reset cfg := List.eq_of_mem_replicate h

/-- With CSR 0 the flag CMF is 0, and so the line is deasserted (10_state.md R36). -/
theorem Channel.irq_of_csr_zero {l : CsrLayout} {c : Channel} (h : c.csr = 0) : c.irq l = false := by
  have hcmf : c.cmf l = false := by rw [Channel.cmf, h]; exact BitVec.getLsbD_zero
  rw [Channel.irq, hcmf, Bool.false_and]

/-- No line of the controller at reset is asserted, under any layout (70_reset_and_hazards.md R230). -/
@[simp] theorem Controller.reset_irq (l : CsrLayout) (i : Nat) : (Controller.reset cfg).irq l i = false := by
  cases hc : (Controller.reset cfg).chans[i]? with
  | none => rw [Controller.irq, hc]
  | some c =>
    have hreset : c = Channel.reset cfg := Controller.eq_reset_of_mem_chans (List.mem_of_getElem? hc)
    rw [Controller.irq_of_getElem? hc, hreset]
    exact Channel.irq_of_csr_zero rfl

end ResetController

/-- Settles O13: the step commits the newly constructed controller, and each clause reads one part of it. -/
theorem resetStepLeavesResetState : Obligations.ResetStepLeavesResetState := by
  intro s rest hw hin
  refine ⟨_, (step_of_cons hin).trans (resetEvent_of_wf hw), rfl, Controller.reset_ssr, Controller.reset_fault,
    Controller.reset_refused, Controller.reset_chans_length, fun c hc => ?_, Controller.reset_irq _⟩
  obtain rfl := Controller.eq_reset_of_mem_chans hc
  exact ⟨rfl, rfl, rfl, rfl⟩

end Sys2Proof.Machine
end

section
/-! The access descriptor and the operations it stands for (30_encoding.md R71, R74, R78). -/

namespace Sys2Proof

/-- An operation's access decodes to the operation (42_controller.md R173). -/
theorem decode_access {n : Nat} {i : Instr} (h : i.wf n) : decode n i.access = .ok i := by
  rw [decode_eq_ok]
  refine ⟨i.width, rfl, ?_⟩
  cases i with
  | ssrRd w => exact .inl ⟨rfl, rfl⟩
  | ssrWr w v => exact .inl ⟨rfl, rfl⟩
  | csrRd ch w => exact .inr ⟨ch, .csr, h, rfl, rfl⟩
  | csrWr ch w v => exact .inr ⟨ch, .csr, h, rfl, rfl⟩
  | cntRd ch w => exact .inr ⟨ch, .cnt, h, rfl, rfl⟩
  | cntWr ch w v => exact .inr ⟨ch, .cnt, h, rfl, rfl⟩
  | corRd ch w => exact .inr ⟨ch, .cor, h, rfl, rfl⟩
  | corWr ch w v => exact .inr ⟨ch, .cor, h, rfl, rfl⟩

/-- The words of an operation stand for its access (30_encoding.md R71). -/
theorem ofDescriptor_encode {n : Nat} {i : Instr} (hn : n ≤ 32) (h : i.wf n) :
    Access.ofDescriptor (encode i).1 (encode i).2 = i.access :=
  match i with
  | .ssrRd w => Laws.EncodeAccess.ssrRd w n hn h
  | .ssrWr w v => Laws.EncodeAccess.ssrWr w v n hn h
  | .csrRd ch w => Laws.EncodeAccess.csrRd ch w n hn h
  | .csrWr ch w v => Laws.EncodeAccess.csrWr ch w v n hn h
  | .cntRd ch w => Laws.EncodeAccess.cntRd ch w n hn h
  | .cntWr ch w v => Laws.EncodeAccess.cntWr ch w v n hn h
  | .corRd ch w => Laws.EncodeAccess.corRd ch w n hn h
  | .corWr ch w v => Laws.EncodeAccess.corWr ch w v n hn h

/-- Settles O1: an operation's words stand for its access, and its access decodes to it. -/
theorem decodeOfEncode : Obligations.DecodeOfEncode := by
  intro n i hn h
  rw [ofDescriptor_encode hn h, decode_access h]

/-- Field D of a descriptor is the bit of its direction (30_encoding.md R71). -/
theorem descriptorDir_bit (d : BitVec 16) : (descriptorDir d).bit = d.extractLsb' 15 1 := by
  apply BitVec.eq_of_getLsbD_eq
  intro j hj
  obtain rfl : j = 0 := by omega
  rw [BitVec.getLsbD_extractLsb', descriptorDir]
  cases d.getLsbD 15 <;> rfl

/-- No other size code stands for the width of an access than the one the encoder writes (30_encoding.md R71). -/
theorem sizeCode_of_two_pow {x : BitVec 2} {w : Width} (h : 2 ^ x.toNat = w.bytes) : w.sizeCode = x := by
  cases w with
  | byte => revert x; decide
  | half => revert x; decide
  | word => revert x; decide

/-- A descriptor is made of its fields: bit 15, bits 14:13 and bits 12:0 (30_encoding.md R71). -/
theorem descriptorOf_fields {d : BitVec 16} {w : Width} (h : descriptorWidth d = w.bytes) :
    descriptorOf (descriptorDir d) w (descriptorOffset d) = d := by
  rw [descriptorOf, descriptorOffset, descriptorDir_bit, sizeCode_of_two_pow h, BitVec.ofNat_toNat, BitVec.setWidth_eq]
  apply BitVec.eq_of_getLsbD_eq
  intro j hj
  simp only [BitVec.getLsbD_append, BitVec.getLsbD_extractLsb']
  split_ifs with hoff hsize
  · simp [hsize]
  · grind
  · grind

/-- A write that an access decodes to carries the access's data (30_encoding.md R71). -/
theorem decode_data {n : Nat} {a : Access} {i : Instr} (h : decode n a = .ok i) (hw : i.dir = .write) :
    i.data = a.data := by
  obtain ⟨w, -, ⟨-, rfl⟩ | ⟨ch, s, -, -, rfl⟩⟩ := decode_eq_ok.1 h
  · rw [sharedOp_dir] at hw
    rw [hw]; rfl
  · rw [channelOp_dir] at hw
    rw [hw]; cases s <;> rfl

/-- Settles O2: the operation's direction, width and offset are the descriptor's fields, which make it up. -/
theorem encodeOfDecode : Obligations.EncodeOfDecode := by
  intro n d v i h
  obtain ⟨hoff, hwidth, hdir⟩ := decode_ok_names_access h
  refine ⟨?_, fun hw => decode_data h hw⟩
  rw [encode, hdir, hoff]
  exact descriptorOf_fields hwidth.symm

section FaultOrder
variable {n : Nat} {a : Access}

/-- The first test of the decode (42_controller.md R173). -/
theorem decode_of_badWidth (h : Width.ofBytes a.width = none) : decode n a = .error .badWidth := by
  rw [decode, h]

variable {w : Width} (hw : Width.ofBytes a.width = some w)
include hw

/-- The second test of the decode (42_controller.md R173). -/
theorem decode_of_badSharedOffset (h0 : a.offset ≠ 0) (h : a.offset < 0x10) :
    decode n a = .error .badSharedOffset := by
  rw [decode, hw]
  simp only [h0, h, if_true, if_false]

/-- The third test of the decode (42_controller.md R173). -/
theorem decode_of_channelOutOfRange (h : ¬ a.offset < 0x10) (hch : n ≤ a.offset / 0x10 - 1) :
    decode n a = .error .channelOutOfRange := by
  have h0 : a.offset ≠ 0 := by omega
  rw [decode, hw]
  simp only [h0, h, hch, if_true, if_false]

/-- The fourth test of the decode (42_controller.md R173). -/
theorem decode_of_badRegisterOffset (h : ¬ a.offset < 0x10) (hch : ¬ n ≤ a.offset / 0x10 - 1)
    (hs : Slot.ofOffset (a.offset % 0x10) = none) : decode n a = .error .badRegisterOffset := by
  have h0 : a.offset ≠ 0 := by omega
  rw [decode, hw]
  simp only [h0, h, hch, hs, if_false]

end FaultOrder

/-- Settles O4: the four failing tests and the accepted access are the cases, and each of the four conditions holds in
its own case only. -/
theorem decodeFaultOrder : Obligations.DecodeFaultOrder := by
  intro n a okWidth
  cases hw : Width.ofBytes a.width with
  | none =>
    have hbad : ¬ okWidth := by have := Width.ofBytes_eq_none.1 hw; simpa [okWidth] using this
    simp [decode_of_badWidth hw, hbad]
  | some w =>
    have hok : okWidth := Width.exists_eq_bytes.1 ⟨w, Width.ofBytes_eq_some.1 hw⟩
    by_cases h0 : a.offset = 0
    · have hd : decode n a = .ok (sharedOp a.dir w a.data) :=
        decode_eq_ok.2 ⟨w, Width.ofBytes_eq_some.1 hw, .inl ⟨h0, rfl⟩⟩
      simp [hd, hok, h0]
    by_cases h10 : a.offset < 0x10
    · rw [decode_of_badSharedOffset hw h0 h10]
      simp [hok, h10, Nat.pos_of_ne_zero h0]
    by_cases hch : n ≤ a.offset / 0x10 - 1
    · rw [decode_of_channelOutOfRange hw h10 hch]
      simp [hok, h10, hch, not_lt.1 h10, not_lt.2 hch]
    cases hs : Slot.ofOffset (a.offset % 0x10) with
    | none =>
      rw [decode_of_badRegisterOffset hw h10 hch hs]
      simp [hok, h10, hch, not_lt.1 h10, not_le.1 hch, Slot.ofOffset_eq_none.1 hs]
    | some s =>
      have hd : decode n a = .ok (channelOp a.dir (a.offset / 0x10 - 1) s w a.data) := by
        rw [decode, hw]
        simp only [h0, h10, hch, hs, if_false]
      have hslot : ¬ (a.offset % 0x10 ≠ 0x0 ∧ a.offset % 0x10 ≠ 0x4 ∧ a.offset % 0x10 ≠ 0x8) := by
        rw [← Slot.ofOffset_eq_none, hs]; nofun
      rw [hd]
      refine ⟨by simp [hok], by simp [h10], by simp [hch], by simp [hslot]⟩

/-- Settles O5, by evaluating the decoder on the words of the vectors. -/
theorem knownDescriptorsDecode : Obligations.KnownDescriptorsDecode := by
  unfold Obligations.KnownDescriptorsDecode
  decide

end Sys2Proof
end

section
/-! What a step does to the parameters and the environment, and which machines take no step (00_scope.md R11,
42_controller.md R180, 60_exceptions.md R201 and R205). -/

namespace Sys2Proof.Machine

/-! ## Operations and requests stand behind the guard of a stopped controller -/

/-- Every operation asks for a working controller first. -/
theorem exec_eq_whenLive (i : Instr) (s : State) : ∃ r, exec i s = whenLive s r := by
  cases i with
  | ssrRd w => exact ⟨_, rfl⟩
  | ssrWr w v => exact ⟨_, rfl⟩
  | csrRd ch w => exact ⟨_, rfl⟩
  | csrWr ch w v => exact ⟨_, rfl⟩
  | cntRd ch w => exact ⟨_, rfl⟩
  | cntWr ch w v => exact ⟨_, rfl⟩
  | corRd ch w => exact ⟨_, rfl⟩
  | corWr ch w v => exact ⟨_, rfl⟩

section Fault
variable {s : State} {f : FaultRecord} (h : s.ctrl.fault = some f)
include h

/-- With a fault recorded no operation is a step (60_exceptions.md R201). -/
theorem exec_of_fault (i : Instr) : exec i s = .fault (.halted f) := by
  obtain ⟨r, hr⟩ := exec_eq_whenLive i s
  rw [hr, whenLive_of_fault h]

/-- With a fault recorded no bus access is a step (60_exceptions.md R201). -/
theorem accessEvent_of_fault (a : Access) : accessEvent a s = .fault (.halted f) := whenLive_of_fault h

/-- With a fault recorded no base tick is a step (60_exceptions.md R201). -/
theorem tickEvent_of_fault : tickEvent s = .fault (.halted f) := whenLive_of_fault h

end Fault

/-- Settles O8: operations, accesses and ticks all stand behind the guard, which answers the recorded fault. -/
theorem faultedControllerTakesNoStep : Obligations.FaultedControllerTakesNoStep := by
  intro s f h
  refine ⟨exec_of_fault h, fun a rest hin => ?_, fun rest hin => ?_⟩
  · exact (step_of_cons hin).trans (accessEvent_of_fault (s := { s with inbox := rest }) h a)
  · exact (step_of_cons hin).trans (tickEvent_of_fault (s := { s with inbox := rest }) h)

/-- Settles O9: the same guard answers a recorded refusal where no fault stands. -/
theorem refusedControllerTakesNoStep : Obligations.RefusedControllerTakesNoStep := by
  intro s why hf hr
  refine ⟨fun i => ?_, fun a rest hin => ?_, fun rest hin => ?_⟩
  · obtain ⟨r, hexec⟩ := exec_eq_whenLive i s
    rw [hexec, whenLive_of_refused hf hr]
  · exact (step_of_cons hin).trans (whenLive_of_refused hf hr)
  · exact (step_of_cons hin).trans (whenLive_of_refused hf hr)

/-! ## Accesses -/

/-- On a working controller an access that decodes is the operation (42_controller.md R171). -/
theorem accessEvent_of_ok {s : State} {a : Access} {i : Instr} (hl : s.Live)
    (h : decode s.cfg.channelCount a = .ok i) : accessEvent a s = exec i s := by
  rw [accessEvent, whenLive_of_live hl, h]

/-- On a working controller an access that does not decode takes its fault (60_exceptions.md R201). -/
theorem accessEvent_of_error {s : State} {a : Access} {kind : AccessFault} (hl : s.Live)
    (h : decode s.cfg.channelCount a = .error kind) : accessEvent a s = .next (s.takeFault (faultOf kind a)) := by
  rw [accessEvent, whenLive_of_live hl, h]

/-- Settles O6: a step performs the placed access, and that is the operation. -/
theorem stepPerformsDecodedOperation : Obligations.StepPerformsDecodedOperation :=
  fun _ _ _ _ hl hin h => (step_of_cons hin).trans (accessEvent_of_ok hl h)

/-- Taking a fault changes no line (60_exceptions.md R201). -/
@[simp] theorem State.takeFault_lineChanges (s : State) (f : FaultRecord) :
    (s.takeFault f).out.lineChanges = [] := changedLines_eq_nil (Controller.irq_of_chans rfl)

/-- Settles O7: each clause reads one part of the machine with its fault taken. -/
theorem stepRecordsDecodeFault : Obligations.StepRecordsDecodeFault :=
  fun _ _ _ _ hl hin h => ⟨_, (step_of_cons hin).trans (accessEvent_of_error hl h), rfl, rfl, rfl, rfl, rfl, rfl,
    State.takeFault_lineChanges _ _⟩

/-! ## What a step needs, and what it keeps -/

/-- Every request but a reset asks for a working controller (60_exceptions.md R201, R205). -/
theorem step_live_or_reset {s t : State} (h : step s = .next t) : s.Live ∨ s.takeRequest.1 = .reset := by
  rw [State.Live, ← s.takeRequest_cfg, ← s.takeRequest_ctrl]
  obtain ⟨a, -, haccess⟩ | ⟨-, htick⟩ | ⟨hr, -⟩ := step_cases h
  · exact .inl (accessEvent_cases haccess).1
  · exact .inl (tickEvent_cases htick).1
  · exact .inr hr

/-- A reset step leaves the controller newly constructed (70_reset_and_hazards.md R230). -/
theorem step_of_reset {s t : State} (hr : s.takeRequest.1 = .reset) (h : step s = .next t) :
    s.cfg.wf ∧ t.ctrl = Controller.reset s.cfg := by
  rw [step, hr] at h
  obtain ⟨hw, rfl⟩ := resetEvent_cases h
  rw [s.takeRequest_cfg] at hw
  exact ⟨hw, by rw [State.commit_ctrl, s.takeRequest_cfg]⟩

/-- Settles O10: a stopped controller is not working, so the step is a reset. -/
theorem onlyResetLeavesAStop : Obligations.OnlyResetLeavesAStop := by
  intro s t hl h
  have hr := (step_live_or_reset h).resolve_left hl
  exact ⟨hr, (step_of_reset hr h).2⟩

/-- No operation changes a parameter, a request to come or the free environment's counter (42_controller.md R180). -/
theorem exec_keeps {i : Instr} {s t : State} (h : exec i s = .next t) : s.Keeps t := by
  obtain ⟨-, ⟨full, w, rfl⟩ | ⟨w, v, -, rfl⟩ | ⟨ch, w, v, c, -, -, rfl⟩ | ⟨ch, w, v, c, -, -, rfl⟩ |
    ⟨ch, w, v, c, -, -, rfl⟩ | rfl⟩ := exec_cases h
  all_goals exact ⟨rfl, rfl, rfl⟩

/-- No step changes a parameter (42_controller.md R180). -/
theorem step_cfg {s t : State} (h : step s = .next t) : t.cfg = s.cfg := by
  rw [← s.takeRequest_cfg]
  obtain ⟨a, -, haccess⟩ | ⟨-, htick⟩ | ⟨-, hreset⟩ := step_cases h
  · obtain ⟨-, ⟨i, -, hexec⟩ | ⟨kind, -, rfl⟩⟩ := accessEvent_cases haccess
    · exact (exec_keeps hexec).1
    · rfl
  · obtain ⟨-, ⟨cs, -, rfl⟩ | ⟨-, rfl⟩⟩ := tickEvent_cases htick
    · rfl
    · rfl
  · obtain ⟨-, rfl⟩ := resetEvent_cases hreset
    rfl

/-- Settles O12, by the three kinds of step (`step_cfg`). -/
theorem stepKeepsParameters : Obligations.StepKeepsParameters := fun _ _ => step_cfg

/-- Settles O59: a counted tick, a refused tick and a reset all commit a controller and no more. -/
theorem tickAndResetKeepTheEnvironment : Obligations.TickAndResetKeepTheEnvironment := by
  intro s t r rest hr hin h
  rw [step_of_cons hin] at h
  obtain rfl | rfl := hr
  · obtain ⟨-, ⟨cs, -, rfl⟩ | ⟨-, rfl⟩⟩ := tickEvent_cases h
    · exact ⟨rfl, rfl, rfl, rfl, rfl⟩
    · exact ⟨rfl, rfl, rfl, rfl, rfl⟩
  · obtain ⟨-, rfl⟩ := resetEvent_cases h
    exact ⟨rfl, rfl, rfl, rfl, rfl⟩

/-! ## Parameters outside their domain -/

/-- A machine that takes a step has admissible parameters (00_scope.md R11). -/
theorem step_cfg_wf {s t : State} (h : step s = .next t) : s.cfg.wf := by
  obtain ⟨hw, -⟩ | hr := step_live_or_reset h
  · exact hw
  · exact (step_of_reset hr h).1

section BadConfiguration
variable {s : State} (h : ¬ s.cfg.wf)
include h

/-- A reset refuses parameters outside their domain, whatever the machine records (00_scope.md R11). -/
theorem resetEvent_of_not_wf : resetEvent s = .refused .badConfiguration := whenAdmissible_of_not_wf h

variable (hf : s.ctrl.fault = none) (hr : s.ctrl.refused = none)
include hf hr

/-- Every request to a machine without a mark is refused where the parameters are outside their domain
(00_scope.md R11). -/
theorem perform_of_not_wf (r : Request) : perform r s = .refused .badConfiguration := by
  cases r with
  | access a => exact whenLive_of_not_wf h hf hr
  | tick => exact whenLive_of_not_wf h hf hr
  | reset => exact resetEvent_of_not_wf h

end BadConfiguration

/-- Settles O16: construction and reset ask for admissible parameters themselves, and all else stands behind the guard
of a stopped controller, which asks for them last. -/
theorem badConfigurationRefused : Obligations.BadConfigurationRefused := by
  refine ⟨fun cfg => ⟨whenAdmissible_of_not_wf, whenAdmissible_of_wf⟩, fun s hw => ⟨fun t ht => ?step,
    fun i t ht => ?exec, fun hf hr => ⟨?refusedStep, fun i => ?refusedExec⟩, fun rest hin => ?reset⟩⟩
  case step => exact hw (step_cfg_wf ht)
  case exec =>
    obtain ⟨⟨hwf, -⟩, -⟩ := exec_cases ht
    exact hw hwf
  case refusedStep =>
    rw [← s.takeRequest_cfg] at hw
    rw [← s.takeRequest_ctrl] at hf hr
    exact perform_of_not_wf hw hf hr _
  case refusedExec =>
    obtain ⟨r, hexec⟩ := exec_eq_whenLive i s
    rw [hexec, whenLive_of_not_wf hw hf hr]
  case reset => exact (step_of_cons hin).trans (resetEvent_of_not_wf hw)

end Sys2Proof.Machine
end

section
/-! The invariant of the machine holds at reset and is kept by every step (10_state.md sections 2 to 6). -/

namespace Sys2Proof.Machine

/-! ## A channel's domain, update by update -/

/-- A channel's divisor is positive (00_scope.md R15). -/
theorem Channel.div_pos (l : CsrLayout) (c : Channel) : 0 < c.div l := divisor_pos _

/-- No transition of an SSR write changes the divisor (42_controller.md R176). -/
@[simp] theorem ssrTransition_div (l l' : CsrLayout) (seq : Nat) (old new : Word) (i : Nat) (c : Channel) :
    (ssrTransition l seq old new i c).div l' = c.div l' := by
  rw [Channel.div, Channel.cks, ssrTransition_csr]
  rfl

/-- A count set by a CNT write stays in [0, COR] (41_channel_registers.md R140). -/
theorem Channel.setCount_remaining_le (c : Channel) (m : Word) : (c.setCount m).remaining ≤ c.cor := by
  rw [Channel.setCount_remaining]
  split_ifs with h
  · exact BitVec.le_refl _
  · bv_omega

section ChannelWf
variable {l : CsrLayout} {en : Bool} {c : Channel}

/-- A channel at reset is in its domain (10_state.md R39). -/
theorem Channel.wf_reset (l : CsrLayout) (en : Bool) (cfg : Config) : Channel.Wf l en (Channel.reset cfg) := by
  refine ⟨BitVec.zero_and, ?_, Channel.div_pos l _, fun _ => rfl⟩
  show remainingAtReset cfg.resetRemaining ≤ resetCor
  cases cfg.resetRemaining <;> decide

/-- A CSR write leaves a channel in its domain: reserved bits 0 and a phase below the new divisor
(41_channel_registers.md R132, R133). -/
theorem Channel.Wf.setCsr (hl : l.wf) (h : Channel.Wf l en c) (seq i : Nat) (m : Word) :
    Channel.Wf l en (c.setCsr l seq i en (csrAfterWrite l c.csr m)) := by
  obtain ⟨-, hle, -, -⟩ := h
  refine ⟨CsrFields.toWord_implemented hl _, hle, ?_, fun hen => ?_⟩
  · show (if en then drawPhase seq i (divisor _) else 0) < divisor _
    split_ifs
    · exact drawPhase_lt seq i (divisor_pos _)
    · exact divisor_pos _
  · rw [Channel.setCsr_psc, hen]
    rfl

/-- A CNT write leaves a channel in its domain (41_channel_registers.md R140). -/
theorem Channel.Wf.setCount (h : Channel.Wf l en c) (m : Word) : Channel.Wf l en (c.setCount m) := by
  obtain ⟨hres, -, -, -⟩ := h
  exact ⟨hres, c.setCount_remaining_le m, Channel.div_pos l _, fun _ => rfl⟩

/-- A COR write leaves a channel in its domain (41_channel_registers.md R144). -/
theorem Channel.Wf.setLimit (h : Channel.Wf l en c) (m : Word) : Channel.Wf l en (c.setLimit m) := by
  obtain ⟨hres, -, -, -⟩ := h
  exact ⟨hres, BitVec.le_refl m, Channel.div_pos l _, fun _ => rfl⟩

/-- An SSR write leaves a channel in its domain: the phase of a started channel is below its divisor, that of a stopped
one 0 (42_controller.md R176). -/
theorem Channel.Wf.ssrTransition {old new : Word} {i : Nat} (h : Channel.Wf l (old.getLsbD i) c) (seq : Nat) :
    Channel.Wf l (new.getLsbD i) (ssrTransition l seq old new i c) := by
  obtain ⟨hres, hle, hlt, hoff⟩ := h
  rw [Channel.Wf, ssrTransition_csr, ssrTransition_cor, ssrTransition_remaining, ssrTransition_psc, ssrTransition_div]
  refine ⟨hres, hle, ?_, fun hnew => ?_⟩
  · split_ifs
    · exact hlt
    · exact drawPhase_lt seq i (divisor_pos _)
    · exact divisor_pos _
  · rw [hnew, if_neg Bool.false_ne_true]
    split_ifs with heq
    · exact hoff heq.symm
    · rfl

/-- A base tick leaves an enabled channel in its domain (40_countdown_clock.md R104 to R107). -/
theorem Channel.Wf.tick {c' : Channel} (hl : l.wf) (h : Channel.Wf l true c) (ht : c.tick l = some c') :
    Channel.Wf l true c' := by
  obtain ⟨hres, hle, -, -⟩ := h
  obtain ⟨hp, rfl⟩ | ⟨-, -, -, rfl⟩ | ⟨-, -, h1, rfl⟩ := Channel.tick_cases ht
  · exact ⟨hres, hle, hp, nofun⟩
  · exact ⟨or_cmfBit_implemented hl hres, BitVec.le_refl c.cor, Channel.div_pos l _, nofun⟩
  · have hdec : c.remaining - 1 ≤ c.cor := by bv_omega
    exact ⟨hres, hdec, Channel.div_pos l _, nofun⟩

end ChannelWf

/-! ## The controller's domain, update by update -/

/-- The enable bits an SSR write leaves: those of the merged value below N (42_controller.md R176). -/
theorem Controller.writeSsr_enabled {n : Nat} (hn : n ≤ 32) (l : CsrLayout) (seq : Nat) (k : Controller) (m : Word)
    (i : Nat) : (k.writeSsr n l seq m).enabled i = (decide (i < n) && m.getLsbD i) := by
  rw [Controller.enabled, Controller.writeSsr_ssr, BitVec.getLsbD_and, lowMask_getLsbD hn, Bool.and_comm]

section ControllerWf
variable {cfg : Config} {k : Controller} (h : k.Wf cfg)
include h

/-- Replacing a channel by one in its domain. -/
theorem Controller.Wf.setChannel (hn : cfg.channelCount ≤ 32) {ch : Nat} {c' : Channel}
    (hc' : Channel.Wf cfg.layout (k.enabled ch) c') : (k.setChannel ch c').Wf cfg := by
  rw [Controller.wf_iff hn] at h ⊢
  obtain ⟨hlen, hssr, hchans, hmarks⟩ := h
  refine ⟨by simpa using hlen, hssr, fun i c hc => ?_, hmarks⟩
  rw [Controller.setChannel_chans, List.getElem?_set] at hc
  split_ifs at hc with hi hlt
  · cases hc
    exact hi ▸ hc'
  · exact hchans i c hc

/-- Writing SSR with the transitions it makes (42_controller.md R176). -/
theorem Controller.Wf.writeSsr (hn : cfg.channelCount ≤ 32) (seq : Nat) (m : Word) :
    (k.writeSsr cfg.channelCount cfg.layout seq m).Wf cfg := by
  rw [Controller.wf_iff hn] at h ⊢
  obtain ⟨hlen, -, hchans, hmarks⟩ := h
  have henabled := Controller.writeSsr_enabled hn cfg.layout seq k m
  refine ⟨by simpa using hlen, fun j hj => ?_, fun i c' hc' => ?_, hmarks⟩
  · exact (henabled j).trans (by simp [hj])
  · rw [Controller.writeSsr_chans, List.getElem?_mapIdx] at hc'
    obtain ⟨c, hc, rfl⟩ := Option.map_eq_some_iff.1 hc'
    have hi : i < cfg.channelCount := hlen ▸ (List.getElem?_eq_some_iff.1 hc).1
    rw [henabled, decide_eq_true hi, Bool.true_and]
    exact (hchans i c hc).ssrTransition seq

/-- Ticking every channel (40_countdown_clock.md R104). -/
theorem Controller.Wf.tick (hn : cfg.channelCount ≤ 32) (hl : cfg.layout.wf) {cs : List Channel}
    (ht : tickFrom cfg.layout k.ssr 0 k.chans = some cs) : Controller.Wf cfg { k with chans := cs } := by
  rw [Controller.wf_iff hn] at h ⊢
  obtain ⟨hlen, hssr, hchans, hmarks⟩ := h
  refine ⟨(tickFrom_eq_some.1 ht).1.trans hlen, hssr, fun i c' hc' => ?_, hmarks⟩
  have hc'' : cs[i]? = some c' := hc'
  rw [tickFrom_getElem? ht] at hc''
  obtain ⟨c, hc, htick⟩ := Option.bind_eq_some_iff.1 hc''
  have hwf := hchans i c hc
  show Channel.Wf cfg.layout (k.enabled i) c'
  cases he : k.enabled i with
  | false =>
    rw [tickIfEnabled_of_disabled he] at htick
    cases htick
    exact he ▸ hwf
  | true =>
    rw [tickIfEnabled_of_enabled he] at htick
    exact (he ▸ hwf).tick hl htick

/-- Recording a fault where no refusal stands (60_exceptions.md R201). -/
theorem Controller.Wf.takeFault (hr : k.refused = none) (f : FaultRecord) :
    Controller.Wf cfg { k with fault := some f } := by
  obtain ⟨hlen, hssr, hchans, -⟩ := h
  exact ⟨hlen, hssr, hchans, .inr hr⟩

/-- Recording a refusal where no fault stands (60_exceptions.md R205). -/
theorem Controller.Wf.takeRefusal (hf : k.fault = none) (why : RefusalReason) :
    Controller.Wf cfg { k with refused := some why } := by
  obtain ⟨hlen, hssr, hchans, -⟩ := h
  exact ⟨hlen, hssr, hchans, .inl hf⟩

end ControllerWf

/-- The controller at reset is in its domain (10_state.md R39). -/
theorem Controller.wf_reset {cfg : Config} (hn : cfg.channelCount ≤ 32) : (Controller.reset cfg).Wf cfg := by
  rw [Controller.wf_iff hn]
  refine ⟨Controller.reset_chans_length, fun j _ => BitVec.getLsbD_zero, fun i c hc => ?_, .inl rfl⟩
  rw [Controller.eq_reset_of_mem_chans (List.mem_of_getElem? hc)]
  exact Channel.wf_reset _ _ _

/-- Settles O17: the platform's parameters are admissible whatever its BASE_HZ. -/
theorem resetStateIsWellFormed : Obligations.ResetStateIsWellFormed := by
  have hreset : ∀ cfg : Config, cfg.wf → (State.resetOf cfg).Wf := fun cfg hw =>
    have ⟨⟨_, hn⟩, _⟩ := hw
    ⟨hw, Controller.wf_reset hn⟩
  refine ⟨hreset, hreset _ ⟨by decide, Nat.succ_pos _, ?_⟩⟩
  show CsrLayout.wf defaultLayout
  decide

/-! ## Steps -/

section WfParts
variable {s : State} (h : s.Wf)
include h

/-- A well-formed machine has at most 32 channels (00_scope.md R11). -/
theorem State.Wf.channelCount_le : s.cfg.channelCount ≤ 32 := by
  obtain ⟨⟨⟨-, hn⟩, -⟩, -⟩ := h
  exact hn

/-- The layout of a well-formed machine is admissible (10_state.md R26). -/
theorem State.Wf.layout_wf : s.cfg.layout.wf := by
  obtain ⟨⟨-, -, hl⟩, -⟩ := h
  exact hl

/-- A well-formed machine has N channels (10_state.md R22). -/
theorem State.Wf.chans_length : s.ctrl.chans.length = s.cfg.channelCount := by
  obtain ⟨-, hlen, -⟩ := h
  exact hlen

end WfParts

/-- Every operation keeps the controller's domain. -/
theorem exec_wf {i : Instr} {s t : State} (hw : s.Wf) (h : exec i s = .next t) : t.ctrl.Wf s.cfg := by
  have hn := hw.channelCount_le
  have hlayout := hw.layout_wf
  have hctrl := hw.2
  obtain ⟨⟨-, -, hr⟩, ⟨full, w, rfl⟩ | ⟨w, v, -, rfl⟩ | ⟨ch, w, v, c, -, hc, rfl⟩ | ⟨ch, w, v, c, -, hc, rfl⟩ |
    ⟨ch, w, v, c, -, hc, rfl⟩ | rfl⟩ := exec_cases h
  · exact hctrl
  · exact hctrl.writeSsr hn _ _
  · exact hctrl.setChannel hn ((hw.channel_wf hc).setCsr hlayout _ _ _)
  · exact hctrl.setChannel hn ((hw.channel_wf hc).setCount _)
  · exact hctrl.setChannel hn ((hw.channel_wf hc).setLimit _)
  · exact hctrl.takeFault hr _

/-- Every bus access keeps the controller's domain. -/
theorem accessEvent_wf {a : Access} {s t : State} (hw : s.Wf) (h : accessEvent a s = .next t) : t.ctrl.Wf s.cfg := by
  obtain ⟨⟨-, -, hr⟩, ⟨i, -, hexec⟩ | ⟨kind, -, rfl⟩⟩ := accessEvent_cases h
  · exact exec_wf hw hexec
  · exact hw.2.takeFault hr _

/-- Every base tick keeps the controller's domain. -/
theorem tickEvent_wf {s t : State} (hw : s.Wf) (h : tickEvent s = .next t) : t.ctrl.Wf s.cfg := by
  obtain ⟨⟨-, hf, -⟩, ⟨cs, hcs, rfl⟩ | ⟨-, rfl⟩⟩ := tickEvent_cases h
  · exact hw.2.tick hw.channelCount_le hw.layout_wf hcs
  · exact hw.2.takeRefusal hf _

/-- Every step keeps the invariant. -/
theorem step_wf {s t : State} (hw : s.Wf) (h : step s = .next t) : t.Wf := by
  rw [State.Wf, step_cfg h]
  refine ⟨hw.1, ?_⟩
  have hw' : s.takeRequest.2.Wf := by rwa [State.Wf, s.takeRequest_cfg, s.takeRequest_ctrl]
  obtain ⟨a, -, haccess⟩ | ⟨-, htick⟩ | ⟨hr, -⟩ := step_cases h
  · simpa using accessEvent_wf hw' haccess
  · simpa using tickEvent_wf hw' htick
  · rw [(step_of_reset hr h).2]
    exact Controller.wf_reset hw.channelCount_le

/-- Settles O18 (`step_wf`). -/
theorem stepKeepsWellFormed : Obligations.StepKeepsWellFormed := fun _ _ => step_wf

end Sys2Proof.Machine
end

section
/-! Base ticks on the whole controller: the refusal, the independence of the channels, and runs of ticks
(40_countdown_clock.md sections 2 and 4). -/

namespace Sys2Proof.Machine

/-! ## One tick -/

/-- A base tick that refuses on a channel of a working controller records the refusal and no more
(40_countdown_clock.md R109). -/
theorem tickEvent_of_refuses {s : State} {i : Nat} (hl : s.Live) (h : s.ctrl.TickRefusesAt s.cfg.layout i) :
    tickEvent s = .next (s.takeRefusal .zeroLimitRunning) := by
  rw [tickEvent, whenLive_of_live hl, tickFrom_eq_none_iff_refuses.2 ⟨i, h⟩]

/-- Settles O44: a tick that does not refuse leaves no mark. -/
theorem tickRefusesZeroLimit : Obligations.TickRefusesZeroLimit := by
  intro s rest hl hin
  rw [step_of_tick hin]
  constructor
  · rintro ⟨i, hi⟩
    exact ⟨_, tickEvent_of_refuses (s := { s with inbox := rest }) hl hi, rfl⟩
  · rintro ⟨t, ht, hctrl⟩
    obtain ⟨⟨-, -, hnone⟩, ⟨cs, -, rfl⟩ | ⟨hcs, -⟩⟩ := tickEvent_cases ht
    · have hmark := congrArg Controller.refused hctrl
      exact absurd (hnone.symm.trans hmark) nofun
    · exact tickFrom_eq_none_iff_refuses.1 hcs

/-- What a base tick that no channel refuses makes of each channel (40_countdown_clock.md R104, R118). -/
theorem tickEvent_getElem? {s t : State} (h : tickEvent s = .next t) (hr : t.ctrl.refused = none) (i : Nat) :
    t.ctrl.chans[i]? = s.ctrl.chans[i]?.bind (tickIfEnabled s.cfg.layout s.ctrl.ssr i) := by
  obtain ⟨-, ⟨cs, hcs, rfl⟩ | ⟨-, rfl⟩⟩ := tickEvent_cases h
  · exact tickFrom_getElem? hcs i
  · cases hr

/-- Of SSR a channel's tick reads the channel's own enable bit only (40_countdown_clock.md R118). -/
theorem tickIfEnabled_congr {l : CsrLayout} {k k' : Controller} {i : Nat} (h : k.enabled i = k'.enabled i) :
    tickIfEnabled l k.ssr i = tickIfEnabled l k'.ssr i := by
  funext c
  rw [Controller.enabled, Controller.enabled] at h
  rw [tickIfEnabled, tickIfEnabled, h]

/-- Settles O46: a channel's tick is a function of the layout, its enable bit and itself. -/
theorem tickChannelsAreIndependent : Obligations.TickChannelsAreIndependent := by
  intro s1 s2 t1 t2 rest1 rest2 i hlayout hin1 hin2 henabled hchans h1 h2 hr1 hr2
  rw [step_of_tick hin1] at h1
  rw [step_of_tick hin2] at h2
  have e1 : t1.ctrl.chans[i]? = s1.ctrl.chans[i]?.bind (tickIfEnabled s1.cfg.layout s1.ctrl.ssr i) :=
    tickEvent_getElem? h1 hr1 i
  have e2 : t2.ctrl.chans[i]? = s2.ctrl.chans[i]?.bind (tickIfEnabled s2.cfg.layout s2.ctrl.ssr i) :=
    tickEvent_getElem? h2 hr2 i
  rw [e1, e2, hlayout, hchans, tickIfEnabled_congr henabled]

/-- A base tick leaves COR (40_countdown_clock.md R104 to R107). -/
theorem Channel.tick_cor {l : CsrLayout} {c c' : Channel} (h : c.tick l = some c') : c'.cor = c.cor := by
  obtain ⟨-, rfl⟩ | ⟨-, -, -, rfl⟩ | ⟨-, -, -, rfl⟩ := Channel.tick_cases h <;> rfl

/-- A base tick leaves COR of a disabled and of an enabled channel alike. -/
theorem tickIfEnabled_cor {l : CsrLayout} {k : Controller} {i : Nat} {c c' : Channel}
    (h : tickIfEnabled l k.ssr i c = some c') : c'.cor = c.cor := by
  cases he : k.enabled i with
  | false => rw [tickIfEnabled_of_disabled he] at h; cases h; rfl
  | true => rw [tickIfEnabled_of_enabled he] at h; exact Channel.tick_cor h

/-! ## Runs of ticks -/

/-- Where no enabled channel has COR 0 a base tick refuses on none (70_reset_and_hazards.md R247). -/
theorem Controller.NoZeroLimitRunning.not_refuses {k : Controller} (h : k.NoZeroLimitRunning) (l : CsrLayout)
    (i : Nat) : ¬ k.TickRefusesAt l i :=
  fun ⟨he, _, hc, h0, _⟩ => h i _ he hc h0

/-- A channel after `k` base ticks in a row while it is enabled; none where one of them refuses. -/
def Channel.ticked (l : CsrLayout) (k : Nat) (c : Channel) : Option Channel :=
  match k with
  | 0 => some c
  | k + 1 => (c.ticked l k).bind (Channel.tick l)

/-- What `k` base ticks in a row make of a machine: it works on, with the requests `rest` to come, and each enabled
channel is ticked `k` times. -/
structure State.AfterTicks (s : State) (k : Nat) (rest : List Request) (t : State) : Prop where
  run : core.run k s = .next t
  cfg : t.cfg = s.cfg
  inbox : t.inbox = rest
  live : t.Live
  noZeroLimit : t.ctrl.NoZeroLimitRunning
  ssr : t.ctrl.ssr = s.ctrl.ssr
  chans : ∀ i, s.ctrl.enabled i = true → t.ctrl.chans[i]? = s.ctrl.chans[i]?.bind (Channel.ticked s.cfg.layout k)

/-- One base tick of a working controller without an enabled channel of COR 0 (40_countdown_clock.md R104). -/
theorem step_tick_of_noZeroLimit {s : State} {rest : List Request} (hl : s.Live)
    (hz : s.ctrl.NoZeroLimitRunning) (hin : s.inbox = .tick :: rest) : ∃ t, s.AfterTicks 1 rest t := by
  obtain ⟨cs, hcs, ht⟩ :=
    tickEvent_of_not_refuses (s := { s with inbox := rest }) hl (hz.not_refuses s.cfg.layout)
  have hget := tickFrom_getElem? hcs
  refine ⟨_, core_run_succ ((step_of_tick hin).trans ht), rfl, rfl, hl, fun i c' he hc' => ?_, rfl, fun i he => ?_⟩
  · obtain ⟨c, hc, htick⟩ := Option.bind_eq_some_iff.1 ((hget i).symm.trans hc')
    rw [tickIfEnabled_cor htick]
    exact hz i c he hc
  · have htick : tickIfEnabled s.cfg.layout s.ctrl.ssr i = Channel.ticked s.cfg.layout 1 :=
      funext fun c => tickIfEnabled_of_enabled he
    exact (hget i).trans (by rw [htick])

/-- A run of base ticks, by one more tick at its end. -/
theorem core_run_ticks {s : State} (hl : s.Live) (hz : s.ctrl.NoZeroLimitRunning) (k : Nat) {rest : List Request}
    (hin : s.inbox = List.replicate k .tick ++ rest) : ∃ t, s.AfterTicks k rest t := by
  induction k generalizing rest with
  | zero => exact ⟨s, rfl, rfl, hin, hl, hz, rfl, fun i _ => (Option.bind_fun_some _).symm⟩
  | succ k ih =>
    rw [List.replicate_succ', List.append_assoc] at hin
    obtain ⟨t, ht⟩ := ih hin
    obtain ⟨u, hu⟩ := step_tick_of_noZeroLimit ht.live ht.noZeroLimit ht.inbox
    refine ⟨u, (core_run_add ht.run).trans hu.run, hu.cfg.trans ht.cfg, hu.inbox, hu.live, hu.noZeroLimit,
      hu.ssr.trans ht.ssr, fun i he => ?_⟩
    have het : t.ctrl.enabled i = true := by rwa [Controller.enabled, ht.ssr]
    rw [hu.chans i het, ht.chans i he, Option.bind_assoc, ht.cfg]
    rfl

/-! ## The time to a channel's compare match -/

section TimeToMatch
variable {l : CsrLayout} {c : Channel}

/-- What `k` base ticks that end before the next compare match make of a channel (40_countdown_clock.md R104, R114). -/
structure Channel.CountedDown (l : CsrLayout) (k : Nat) (c c' : Channel) : Prop where
  csr : c'.csr = c.csr
  cor : c'.cor = c.cor
  psc_lt : c'.psc < c'.div l
  timeLeft : c'.ticksToMatch l = c.ticksToMatch l - k
  remaining_ne_zero : c.remaining ≠ 0 → c'.remaining ≠ 0

/-- The divisor is a function of CSR (00_scope.md R15). -/
theorem Channel.div_congr {c c' : Channel} (h : c'.csr = c.csr) : c'.div l = c.div l := by
  rw [Channel.div, Channel.div, Channel.cks, Channel.cks, h]

/-- With COR above 0 a base tick refuses no channel (40_countdown_clock.md R109). -/
theorem Channel.exists_tick (hcor : c.cor ≠ 0) : ∃ c', c.tick l = some c' := by
  cases h : c.tick l with
  | none => exact absurd (Channel.tick_eq_none.1 h).2 hcor
  | some c' => exact ⟨c', rfl⟩

variable (hp : c.psc < c.div l)
include hp

/-- The next compare match is at least one tick ahead (40_countdown_clock.md R114). -/
theorem Channel.ticksToMatch_pos : 0 < c.ticksToMatch l := by
  have h1 : c.div l ≤ max c.remaining.toNat 1 * c.div l := Nat.le_mul_of_pos_left _ (by omega)
  rw [Channel.ticksToMatch]
  omega

/-- A tick that is not the compare match takes one off the time to it: in the prescaler, or by a decrement that starts
the prescaler anew (40_countdown_clock.md R104 to R106, R114). -/
theorem Channel.tick_countedDown {c' : Channel} (ht : c.tick l = some c') (h1 : 1 < c.ticksToMatch l) :
    c.CountedDown l 1 c' := by
  have hd := Channel.div_pos l c
  by_cases hcount : c.psc + 1 < c.div l
  · obtain rfl := Channel.tick_of_psc_lt ht hcount
    exact ⟨rfl, rfl, hcount, (Nat.sub_sub _ _ 1).symm, id⟩
  have hwrap : c.psc = c.div l - 1 := by omega
  by_cases h2 : 2 ≤ c.remaining.toNat
  · obtain rfl := Channel.tick_of_two_le ht hcount h2
    have hsub : (c.remaining - 1).toNat = c.remaining.toNat - 1 := by bv_omega
    refine ⟨rfl, rfl, hd, ?_, fun _ => by bv_omega⟩
    show max (c.remaining - 1).toNat 1 * c.div l - 0 = max c.remaining.toNat 1 * c.div l - c.psc - 1
    rw [hsub, max_eq_left (by omega), max_eq_left (by omega), Nat.sub_mul, hwrap]
    omega
  · have hmax : max c.remaining.toNat 1 = 1 := by omega
    rw [Channel.ticksToMatch, hmax] at h1
    omega

/-- The tick that the time to the compare match counts to is the compare match (40_countdown_clock.md R106, R107,
R114). -/
theorem Channel.tick_match {c' : Channel} (ht : c.tick l = some c') (h1 : c.ticksToMatch l = 1) :
    c' = ({ c with psc := 0 } : Channel).compareMatch l := by
  have hlow : c.div l ≤ max c.remaining.toNat 1 * c.div l := Nat.le_mul_of_pos_left _ (by omega)
  rw [Channel.ticksToMatch] at h1
  refine Channel.tick_of_not_two_le ht (by omega) fun h2 => ?_
  have htwo : 2 * c.div l ≤ max c.remaining.toNat 1 * c.div l := Nat.mul_le_mul_right _ (by omega)
  omega

variable (hcor : c.cor ≠ 0)
include hcor

/-- Before the compare match the ticks only take off the time to it (40_countdown_clock.md R114). -/
theorem Channel.ticked_before_match {k : Nat} (hk : k < c.ticksToMatch l) :
    ∃ c', c.ticked l k = some c' ∧ c.CountedDown l k c' := by
  induction k with
  | zero => exact ⟨c, rfl, rfl, rfl, hp, rfl, id⟩
  | succ k ih =>
    obtain ⟨c1, h1, hc1⟩ := ih (by omega)
    have htime := hc1.timeLeft
    obtain ⟨c2, h2⟩ := Channel.exists_tick (l := l) (hc1.cor ▸ hcor)
    have hc2 := Channel.tick_countedDown hc1.psc_lt h2 (by omega)
    refine ⟨c2, by rw [Channel.ticked, h1, Option.bind_some, h2], hc2.csr.trans hc1.csr, hc2.cor.trans hc1.cor,
      hc2.psc_lt, ?_, fun hr => hc2.remaining_ne_zero (hc1.remaining_ne_zero hr)⟩
    rw [hc2.timeLeft, htime, Nat.sub_sub]

/-- On the tick that the time to the compare match counts to, the channel matches (40_countdown_clock.md R107, R114). -/
theorem Channel.ticked_match (hl : l.wf) :
    ∃ c', c.ticked l (c.ticksToMatch l) = some c' ∧ c'.cmf l = true ∧ c'.remaining = c.cor ∧ c'.cor = c.cor ∧
      c'.psc = 0 ∧ c'.ticksToMatch l = c.periodTicks l := by
  obtain ⟨k, hk⟩ := Nat.exists_eq_add_of_lt (Channel.ticksToMatch_pos hp)
  rw [Nat.zero_add] at hk
  obtain ⟨c1, h1, hc1⟩ := Channel.ticked_before_match hp hcor (k := k) (by omega)
  have htime := hc1.timeLeft
  obtain ⟨c2, h2⟩ := Channel.exists_tick (l := l) (hc1.cor ▸ hcor)
  obtain rfl := Channel.tick_match hc1.psc_lt h2 (by omega)
  refine ⟨({ c1 with psc := 0 } : Channel).compareMatch l, by rw [hk, Channel.ticked, h1, Option.bind_some, h2],
    Channel.compareMatch_cmf hl _, hc1.cor, hc1.cor, rfl, ?_⟩
  have hdiv : (({ c1 with psc := 0 } : Channel).compareMatch l).div l = c.div l := by
    rw [Channel.div, Channel.compareMatch_cks hl]
    exact Channel.div_congr hc1.csr
  have hpos : 1 ≤ c.cor.toNat := by bv_omega
  rw [Channel.ticksToMatch, hdiv, Channel.compareMatch_remaining, Channel.periodTicks]
  show max c1.cor.toNat 1 * c.div l - 0 = c.cor.toNat * c.div l
  rw [hc1.cor, max_eq_left hpos, Nat.sub_zero]

/-- From phase 0, `n` times the divisor many ticks take `n` off a decrementer above `n` and leave phase 0
(40_countdown_clock.md R102): the time to the match leaves no other decrementer and phase. -/
theorem Channel.ticked_mul_div (hphase : c.psc = 0) {n : Nat} (hn : n < c.remaining.toNat) :
    ∃ c', c.ticked l (n * c.div l) = some c' ∧ c'.remaining.toNat = c.remaining.toNat - n ∧ c'.psc = 0 ∧
      c'.csr = c.csr ∧ c'.cor = c.cor := by
  have hd := Channel.div_pos l c
  have htime : c.ticksToMatch l = c.remaining.toNat * c.div l := by
    rw [Channel.ticksToMatch, hphase, max_eq_left (by omega), Nat.sub_zero]
  have hlt : n * c.div l < c.ticksToMatch l := htime ▸ Nat.mul_lt_mul_of_pos_right hn hd
  obtain ⟨c', hticked, hc'⟩ := Channel.ticked_before_match hp hcor hlt
  have hr : c'.remaining.toNat ≠ 0 := by
    have := hc'.remaining_ne_zero (by bv_omega)
    bv_omega
  have hleft := hc'.timeLeft
  have hpsc := hc'.psc_lt
  rw [Channel.ticksToMatch, Channel.div_congr hc'.csr, htime, max_eq_left (by omega), ← Nat.sub_mul] at hleft
  rw [Channel.div_congr hc'.csr] at hpsc
  have hone : 1 * c.div l ≤ (c.remaining.toNat - n) * c.div l := Nat.mul_le_mul_right _ (by omega)
  have hsplit : c'.psc + c.div l * (c.remaining.toNat - n) = c.div l * c'.remaining.toNat := by
    rw [Nat.mul_comm, Nat.mul_comm (c.div l)]
    omega
  obtain ⟨hquot, hrem⟩ := (Nat.div_mod_unique hd).2 ⟨hsplit, hpsc⟩
  rw [Nat.mul_div_cancel_left _ hd] at hquot
  rw [Nat.mul_mod_right] at hrem
  exact ⟨c', hticked, hquot, hrem.symm, hc'.csr, hc'.cor⟩

end TimeToMatch

/-! ## The two timing statements -/

/-- A run of base ticks ticks an enabled channel as often. -/
theorem State.AfterTicks.channel {s t : State} {k i : Nat} {rest : List Request} {c : Channel}
    (h : s.AfterTicks k rest t) (he : s.ctrl.enabled i = true) (hc : s.ctrl.chans[i]? = some c) :
    t.ctrl.chans[i]? = c.ticked s.cfg.layout k := by
  rw [h.chans i he, hc, Option.bind_some]

/-- Settles O47: the machine's run ticks the channel (`core_run_ticks`), and the channel's ticks count down to its match
(`Channel.ticked_before_match`, `Channel.ticked_match`). -/
theorem compareMatchTiming : Obligations.CompareMatchTiming := by
  intro s i c rest hw hl he hc hz l hin
  have hcor : c.cor ≠ 0 := hz i c he hc
  obtain ⟨-, -, hpsc, -⟩ := hw.channel_wf hc
  refine ⟨fun k hk => ?before, ?_⟩
  case before =>
    rw [← Nat.add_sub_cancel' hk.le, List.replicate_add, List.append_assoc] at hin
    obtain ⟨t, ht⟩ := core_run_ticks hl hz k hin
    obtain ⟨c', hc', hcount⟩ := Channel.ticked_before_match hpsc hcor hk
    exact ⟨t, c', ht.run, (ht.channel he hc).trans hc', hcount.csr, hcount.cor, ht.ssr, hcount.timeLeft⟩
  obtain ⟨t, ht⟩ := core_run_ticks hl hz _ hin
  obtain ⟨c', hc', hcmf, hrem, hcor', hpsc', htime⟩ := Channel.ticked_match hpsc hcor hw.layout_wf
  exact ⟨t, c', ht.run, (ht.channel he hc).trans hc', hcmf, hrem, hcor', hpsc', ht.ssr, htime⟩

/-- Settles O48, from the channel's ticks (`Channel.ticked_mul_div`). -/
theorem countingRate : Obligations.CountingRate := by
  intro s i n c rest hw hl he hc hz hphase hn hin
  obtain ⟨-, -, hpsc, -⟩ := hw.channel_wf hc
  obtain ⟨t, ht⟩ := core_run_ticks hl hz _ hin
  obtain ⟨c', hc', hc'_eq⟩ := Channel.ticked_mul_div hpsc (hz i c he hc) hphase hn
  exact ⟨t, c', ht.run, (ht.channel he hc).trans hc', hc'_eq⟩

end Sys2Proof.Machine
end

section
/-! What a step makes of one channel, and what follows for COR and for runs of requests that keep to the register map
(10_state.md R32, 70_reset_and_hazards.md section 3). -/

namespace Sys2Proof.Machine

/-! ## One channel over an operation -/

/-- What the operation `op` makes of channel `i` of the controller of `s`, which was `c` before it
(30_encoding.md R74). -/
inductive Channel.ChangedBy (s : State) (op : Instr) (i : Nat) (c : Channel) : Channel → Prop
  | kept : ChangedBy s op i c c
  | ssrWr (m : Word) : ChangedBy s op i c (ssrTransition s.cfg.layout s.draws s.ctrl.ssr m i c)
  | csrWr (w : Width) (v : Word) (h : op = .csrWr i w v) : ChangedBy s op i c
      (c.setCsr s.cfg.layout s.draws i (s.ctrl.enabled i) (csrAfterWrite s.cfg.layout c.csr (merge c.csr v w)))
  | cntWr (m : Word) : ChangedBy s op i c (c.setCount m)
  | corWr (w : Width) (v : Word) (h : op = .corWr i w v) : ChangedBy s op i c (c.setLimit (merge c.cor v w))

/-- A channel after channel `ch` is replaced: the new one, or one that stood there. -/
theorem Controller.setChannel_getElem?_cases {k : Controller} {ch i : Nat} {d c' : Channel}
    (h : (k.setChannel ch d).chans[i]? = some c') : (ch = i ∧ c' = d) ∨ k.chans[i]? = some c' := by
  rw [Controller.setChannel_chans, List.getElem?_set] at h
  split_ifs at h with hi
  · cases h
    exact .inl ⟨hi, rfl⟩
  · exact .inr h

/-- Each channel after an operation is one of before, changed by the operation. -/
theorem exec_channel {op : Instr} {s t : State} {i : Nat} {c' : Channel} (h : exec op s = .next t)
    (hc' : t.ctrl.chans[i]? = some c') : ∃ c, s.ctrl.chans[i]? = some c ∧ Channel.ChangedBy s op i c c' := by
  obtain ⟨-, ⟨full, w, rfl⟩ | ⟨w, v, -, rfl⟩ | ⟨ch, w, v, c, hop, hc, rfl⟩ | ⟨ch, w, v, c, -, hc, rfl⟩ |
    ⟨ch, w, v, c, hop, hc, rfl⟩ | rfl⟩ := exec_cases h
  · exact ⟨c', hc', .kept⟩
  · rw [State.commit_ctrl, Controller.writeSsr_chans, List.getElem?_mapIdx] at hc'
    obtain ⟨c, hc, rfl⟩ := Option.map_eq_some_iff.1 hc'
    exact ⟨c, hc, .ssrWr _⟩
  · obtain ⟨rfl, rfl⟩ | hc' := Controller.setChannel_getElem?_cases hc'
    · exact ⟨c, hc, .csrWr w v hop⟩
    · exact ⟨c', hc', .kept⟩
  · obtain ⟨rfl, rfl⟩ | hc' := Controller.setChannel_getElem?_cases hc'
    · exact ⟨c, hc, .cntWr _⟩
    · exact ⟨c', hc', .kept⟩
  · obtain ⟨rfl, rfl⟩ | hc' := Controller.setChannel_getElem?_cases hc'
    · exact ⟨c, hc, .corWr w v hop⟩
    · exact ⟨c', hc', .kept⟩
  · exact ⟨c', hc', .kept⟩

section ChangedBy
variable {s : State} {op : Instr} {i : Nat} {c c' : Channel} (h : Channel.ChangedBy s op i c c')
include h

/-- Of the operations only a COR write of the channel changes its COR (10_state.md R32). -/
theorem Channel.ChangedBy.cor : c'.cor = c.cor ∨ ∃ w v, op = .corWr i w v ∧ c'.cor = merge c.cor v w := by
  cases h with
  | corWr w v hop => exact .inr ⟨w, v, hop, rfl⟩
  | ssrWr m => exact .inl (ssrTransition_cor ..)
  | kept => exact .inl rfl
  | csrWr w v hop => exact .inl rfl
  | cntWr m => exact .inl rfl

/-- Of the operations only a CSR write of the channel changes its CSR (10_state.md R28, R29). -/
theorem Channel.ChangedBy.csr : c'.csr = c.csr ∨
    ∃ w v, op = .csrWr i w v ∧ c'.csr = csrAfterWrite s.cfg.layout c.csr (merge c.csr v w) := by
  cases h with
  | csrWr w v hop => exact .inr ⟨w, v, hop, rfl⟩
  | ssrWr m => exact .inl (ssrTransition_csr ..)
  | kept => exact .inl rfl
  | cntWr m => exact .inl rfl
  | corWr w v hop => exact .inl rfl

end ChangedBy

/-! ## One channel over a step -/

/-- What a step makes of a channel: an operation's change, a base tick, or the channel at reset; or it stays. -/
theorem step_channel {s t : State} {i : Nat} {c c' : Channel} (h : step s = .next t) (hc : s.ctrl.chans[i]? = some c)
    (hc' : t.ctrl.chans[i]? = some c') :
    c' = c ∨
    (∃ a op, s.takeRequest.1 = .access a ∧ decode s.cfg.channelCount a = .ok op ∧
      Channel.ChangedBy s.takeRequest.2 op i c c') ∨
    (s.takeRequest.1 = .tick ∧ s.ctrl.enabled i = true ∧ c.tick s.cfg.layout = some c') ∨
    (s.takeRequest.1 = .reset ∧ c' = Channel.reset s.cfg) := by
  rw [← s.takeRequest_ctrl] at hc
  obtain ⟨a, ha, haccess⟩ | ⟨hr, htick⟩ | ⟨hr, -⟩ := step_cases h
  · obtain ⟨-, ⟨op, hop, hexec⟩ | ⟨kind, -, rfl⟩⟩ := accessEvent_cases haccess
    · obtain ⟨c0, hc0, hchange⟩ := exec_channel hexec hc'
      obtain rfl : c0 = c := Option.some.inj (hc0.symm.trans hc)
      rw [s.takeRequest_cfg] at hop
      exact .inr (.inl ⟨a, op, ha, hop, hchange⟩)
    · exact .inl (Option.some.inj (hc'.symm.trans hc))
  · obtain ⟨-, ⟨cs, hcs, rfl⟩ | ⟨-, rfl⟩⟩ := tickEvent_cases htick
    · have hget : cs[i]? = some c' := hc'
      rw [tickFrom_getElem? hcs, hc, Option.bind_some] at hget
      rw [← s.takeRequest_ctrl, ← s.takeRequest_cfg]
      cases he : s.takeRequest.2.ctrl.enabled i with
      | false => exact .inl (Option.some.inj (hget.symm.trans (tickIfEnabled_of_disabled he)))
      | true => exact .inr (.inr (.inl ⟨hr, rfl, (tickIfEnabled_of_enabled he).symm.trans hget⟩))
    · exact .inl (Option.some.inj (hc'.symm.trans hc))
  · rw [(step_of_reset hr h).2] at hc'
    exact .inr (.inr (.inr ⟨hr, Controller.eq_reset_of_mem_chans (List.mem_of_getElem? hc')⟩))

/-- Settles O55, by what a step makes of a channel (`step_channel`). -/
theorem compareRegisterChangesOnlyByCorWrite : Obligations.CompareRegisterChangesOnlyByCorWrite := by
  intro s t i c c' h hc hc' hne
  obtain rfl | ⟨a, op, ha, hop, hchange⟩ | ⟨-, -, htick⟩ | ⟨hr, -⟩ := step_channel h hc hc'
  · exact absurd rfl hne
  · obtain ⟨w, v, rfl, -⟩ := hchange.cor.resolve_left hne
    exact .inr ⟨a, w, v, ha, hop⟩
  · exact absurd (Channel.tick_cor htick) hne
  · exact .inl hr

/-! ## Accesses on the register map -/

/-- What decodes is an operation of an existing channel (42_controller.md R174). -/
theorem decode_ok_wf {n : Nat} {a : Access} {i : Instr} (h : decode n a = .ok i) : i.wf n := by
  obtain ⟨w, -, ⟨-, rfl⟩ | ⟨ch, slot, hch, -, rfl⟩⟩ := decode_eq_ok.1 h
  · cases a.dir <;> exact trivial
  · cases a.dir <;> cases slot <;> exact hch

/-- On a well-formed working machine every operation on an existing register is answered, and the machine works on. -/
theorem exec_of_wf {i : Instr} {s : State} (hw : s.Wf) (hl : s.Live) (hi : i.wf s.cfg.channelCount) :
    ∃ t, exec i s = .next t ∧ t.Live ∧ t.out.reply ≠ none := by
  cases i with
  | ssrRd w => exact ⟨_, exec_ssrRd_of_live hl, hl, nofun⟩
  | ssrWr w v => exact ⟨_, exec_ssrWr_of_live hl, hl, nofun⟩
  | csrRd ch w => obtain ⟨c, hc⟩ := hw.channel hi; exact ⟨_, exec_csrRd_of_some hl hc, hl, nofun⟩
  | csrWr ch w v => obtain ⟨c, hc⟩ := hw.channel hi; exact ⟨_, exec_csrWr_of_some hl hc, hl, nofun⟩
  | cntRd ch w => obtain ⟨c, hc⟩ := hw.channel hi; exact ⟨_, exec_cntRd_of_some hl hc, hl, nofun⟩
  | cntWr ch w v => obtain ⟨c, hc⟩ := hw.channel hi; exact ⟨_, exec_cntWr_of_some hl hc, hl, nofun⟩
  | corRd ch w => obtain ⟨c, hc⟩ := hw.channel hi; exact ⟨_, exec_corRd_of_some hl hc, hl, nofun⟩
  | corWr ch w v => obtain ⟨c, hc⟩ := hw.channel hi; exact ⟨_, exec_corWr_of_some hl hc, hl, nofun⟩

/-- Settles O57: an access on the map is an operation on an existing register, and every other one takes its fault. -/
theorem accessFaultsExactlyOffTheMap : Obligations.AccessFaultsExactlyOffTheMap := by
  intro s a rest hw hl hin
  have hw' : State.Wf { s with inbox := rest } := hw
  have hl' : State.Live { s with inbox := rest } := hl
  rw [step_of_cons hin, ← decode_isOk_iff_onMap]
  cases hd : decode s.cfg.channelCount a with
  | ok i =>
    obtain ⟨t, ht, ⟨-, hf, hr⟩, hreply⟩ := exec_of_wf hw' hl' (decode_ok_wf hd)
    exact ⟨t, (accessEvent_of_ok hl' hd).trans ht, hr, ⟨fun _ => ⟨i, rfl⟩, fun _ => hf⟩,
      ⟨fun _ => ⟨i, rfl⟩, fun _ => hreply⟩, fun hoff => absurd ⟨i, rfl⟩ hoff⟩
  | error kind =>
    have hoff : ¬ ∃ i, (Except.error kind : Except AccessFault Instr) = .ok i := nofun
    obtain ⟨-, -, hr⟩ := hl
    refine ⟨_, accessEvent_of_error hl' hd, hr, ⟨nofun, fun h => absurd h hoff⟩,
      ⟨fun h => absurd rfl h, fun h => absurd h hoff⟩, fun _ => ⟨faultOf kind a, rfl, ?_, fun a' => ?_, ?_⟩⟩
    · exact tickEvent_of_fault rfl
    · exact accessEvent_of_fault rfl a'
    · exact exec_of_fault rfl

/-! ## Runs of benign requests -/

/-- A reset is a step and leaves no COR at 0 (10_state.md R39). -/
theorem resetEvent_of_live {s : State} (hl : s.Live) :
    ∃ t, resetEvent s = .next t ∧ t.Live ∧ t.inbox = s.inbox ∧ ∀ c ∈ t.ctrl.chans, c.cor ≠ 0 := by
  obtain ⟨hw, -⟩ := hl
  refine ⟨_, resetEvent_of_wf hw, ⟨hw, rfl, rfl⟩, rfl, fun c hmem => ?_⟩
  obtain rfl := Controller.eq_reset_of_mem_chans hmem
  show resetCor ≠ 0
  decide

section Benign
variable {s : State} {rest : List Request} (hl : s.Live) (hcor : ∀ c ∈ s.ctrl.chans, c.cor ≠ 0)
include hl hcor

/-- A benign access is answered and leaves no COR at 0 (70_reset_and_hazards.md R247, R248). -/
theorem accessEvent_of_benign {a : Access} (hw : s.Wf) (hb : BenignRequest s.cfg.channelCount (.access a)) :
    ∃ t, accessEvent a s = .next t ∧ t.Live ∧ t.inbox = s.inbox ∧ ∀ c ∈ t.ctrl.chans, c.cor ≠ 0 := by
  obtain ⟨op, hop, hwrite⟩ := hb
  obtain ⟨t, ht, hlt, -⟩ := exec_of_wf hw hl (decode_ok_wf hop)
  obtain ⟨-, hinbox, -⟩ := exec_keeps ht
  refine ⟨t, (accessEvent_of_ok hl hop).trans ht, hlt, hinbox, fun c' hmem => ?_⟩
  obtain ⟨i, hc'⟩ := List.mem_iff_getElem?.1 hmem
  obtain ⟨c, hc, hchange⟩ := exec_channel ht hc'
  obtain hsame | ⟨w, v, rfl, hnew⟩ := hchange.cor
  · rw [hsame]
    exact hcor c (List.mem_of_getElem? hc)
  · obtain ⟨rfl, hv⟩ := hwrite i w v rfl
    rwa [hnew, merge_word]

/-- A base tick is a step that records no refusal and leaves no COR at 0 (70_reset_and_hazards.md R247). -/
theorem tickEvent_of_cor_ne_zero :
    ∃ t, tickEvent s = .next t ∧ t.Live ∧ t.inbox = s.inbox ∧ ∀ c ∈ t.ctrl.chans, c.cor ≠ 0 := by
  obtain ⟨cs, hcs, ht⟩ := tickEvent_of_not_refuses hl
    fun i ⟨_, c, hc, h0, _⟩ => hcor c (List.mem_of_getElem? hc) h0
  refine ⟨_, ht, hl, rfl, fun c' hmem => ?_⟩
  obtain ⟨i, hc'⟩ := List.mem_iff_getElem?.1 hmem
  obtain ⟨c, hc, htick⟩ := Option.bind_eq_some_iff.1 ((tickFrom_getElem? hcs i).symm.trans hc')
  rw [tickIfEnabled_cor htick]
  exact hcor c (List.mem_of_getElem? hc)

/-- A benign request is a step that leaves the machine working and no COR at 0. -/
theorem step_of_benign {r : Request} (hw : s.Wf) (hin : s.inbox = r :: rest)
    (hb : BenignRequest s.cfg.channelCount r) :
    ∃ t, step s = .next t ∧ t.Live ∧ t.inbox = rest ∧ ∀ c ∈ t.ctrl.chans, c.cor ≠ 0 := by
  have hw' : State.Wf { s with inbox := rest } := hw
  have hl' : State.Live { s with inbox := rest } := hl
  rw [step_of_cons hin]
  cases r with
  | access a => exact accessEvent_of_benign hl' hcor hw' hb
  | tick => exact tickEvent_of_cor_ne_zero hl' hcor
  | reset => exact resetEvent_of_live hl'

end Benign

/-- Settles O58, by induction on the requests: each is a step that keeps the invariant, the machine working and every
COR above 0. -/
theorem benignRequestsRunSafely : Obligations.BenignRequestsRunSafely := by
  intro s rs rest hw hl hcor hin hb
  induction rs generalizing s with
  | nil => exact ⟨s, rfl, hl⟩
  | cons r rs ih =>
    obtain ⟨hr, hrs⟩ := List.forall_mem_cons.1 hb
    obtain ⟨t, ht, hlt, hint, hcort⟩ := step_of_benign hl hcor hw hin hr
    obtain ⟨u, hu, hlu⟩ := ih t (step_wf hw ht) hlt hcort hint (by rwa [step_cfg ht])
    exact ⟨u, (core_run_succ ht).trans hu, hlu⟩

end Sys2Proof.Machine
end

section
/-! The interrupt lines and the flags over a step (10_state.md R28, R29, R36, 41_channel_registers.md R146,
60_exceptions.md R208). -/

namespace Sys2Proof.Machine

/-! ## Lines -/

/-- A line is asserted exactly when CMF is 1 and CMR is not 0 (10_state.md R36). -/
theorem Channel.irq_eq_true_iff {l : CsrLayout} {c : Channel} : c.irq l = true ↔ c.cmf l = true ∧ c.cmr l ≠ 0 := by
  rw [Channel.irq, Bool.and_eq_true, decide_eq_true_eq]

/-- Settles O49: the level is computed from CMF and CMR, and these from CSR. -/
theorem interruptLevel : Obligations.InterruptLevel := by
  intro l k i c hc
  rw [Controller.irq_of_getElem? hc]
  exact ⟨Channel.irq_eq_true_iff, fun _ => Channel.irq_congr⟩

/-- There is no line beyond the channels (10_state.md R36). -/
theorem Controller.irq_of_none {l : CsrLayout} {k : Controller} {i : Nat} (h : k.chans[i]? = none) :
    k.irq l i = false := by
  rw [Controller.irq, h]

/-- An operation reports the lines that differ from those before it (60_exceptions.md R208). -/
theorem exec_lineChanges {i : Instr} {s t : State} (h : exec i s = .next t) :
    t.out.lineChanges = changedLines s.cfg.channelCount s.cfg.layout s.ctrl t.ctrl := by
  obtain ⟨-, ⟨full, w, rfl⟩ | ⟨w, v, -, rfl⟩ | ⟨ch, w, v, c, -, -, rfl⟩ | ⟨ch, w, v, c, -, -, rfl⟩ |
    ⟨ch, w, v, c, -, -, rfl⟩ | rfl⟩ := exec_cases h
  all_goals rfl

/-- A step reports the lines that differ from those before it (60_exceptions.md R208). -/
theorem step_lineChanges {s t : State} (h : step s = .next t) :
    t.out.lineChanges = changedLines s.cfg.channelCount s.cfg.layout s.ctrl t.ctrl := by
  rw [← s.takeRequest_cfg, ← s.takeRequest_ctrl]
  obtain ⟨a, -, haccess⟩ | ⟨-, htick⟩ | ⟨-, hreset⟩ := step_cases h
  · obtain ⟨-, ⟨i, -, hexec⟩ | ⟨kind, -, rfl⟩⟩ := accessEvent_cases haccess
    · exact exec_lineChanges hexec
    · rfl
  · obtain ⟨-, ⟨cs, -, rfl⟩ | ⟨-, rfl⟩⟩ := tickEvent_cases htick
    · rfl
    · rfl
  · obtain ⟨-, rfl⟩ := resetEvent_cases hreset
    rfl

/-- A line that a step from a well-formed machine changes is that of a channel there before and after. -/
theorem step_channel_of_line_change {s t : State} {i : Nat} (hw : s.Wf) (h : step s = .next t)
    (hne : s.ctrl.irq s.cfg.layout i ≠ t.ctrl.irq s.cfg.layout i) :
    ∃ c c', s.ctrl.chans[i]? = some c ∧ t.ctrl.chans[i]? = some c' ∧ c.irq s.cfg.layout ≠ c'.irq s.cfg.layout := by
  have hwt := step_wf hw h
  cases hc : s.ctrl.chans[i]? with
  | none =>
    have hi : ¬ i < t.cfg.channelCount := fun hi => by
      rw [step_cfg h] at hi
      obtain ⟨c, hsome⟩ := hw.channel hi
      exact absurd (hc.symm.trans hsome) nofun
    have hc' : t.ctrl.chans[i]? = none := Option.eq_none_iff_forall_ne_some.2 fun c' hc' => hi (hwt.channel_lt hc')
    exact absurd ((Controller.irq_of_none hc).trans (Controller.irq_of_none hc').symm) hne
  | some c =>
    obtain ⟨c', hc'⟩ := hwt.channel (step_cfg h ▸ hw.channel_lt hc)
    rw [Controller.irq_of_getElem? hc, Controller.irq_of_getElem? hc'] at hne
    exact ⟨c, c', rfl, hc', hne⟩

/-- Settles O50: a line beyond the channels does not change. -/
theorem lineChangesReported : Obligations.LineChangesReported := by
  intro s t hw h i
  rw [step_lineChanges h, step_cfg h, mem_changedLines]
  refine ⟨fun hi => hi.2, fun hne => ⟨?_, hne⟩⟩
  obtain ⟨c, c', hc, -, -⟩ := step_channel_of_line_change hw h hne
  exact hw.channel_lt hc

/-! ## CSR over a step -/

/-- What a step makes of a channel's CSR: a write of it, a compare match, or 0 in a reset; or it stays
(10_state.md R28, R29). -/
theorem step_csr {s t : State} {i : Nat} {c c' : Channel} (h : step s = .next t) (hc : s.ctrl.chans[i]? = some c)
    (hc' : t.ctrl.chans[i]? = some c') :
    c'.csr = c.csr ∨
    (∃ a w v, s.takeRequest.1 = .access a ∧ decode s.cfg.channelCount a = .ok (.csrWr i w v) ∧
      c'.csr = csrAfterWrite s.cfg.layout c.csr (merge c.csr v w)) ∨
    (s.takeRequest.1 = .tick ∧ s.ctrl.enabled i = true ∧ ¬ c.psc + 1 < c.div s.cfg.layout ∧ c.remaining.toNat ≤ 1 ∧
      c'.csr = (c.compareMatch s.cfg.layout).csr) ∨
    (s.takeRequest.1 = .reset ∧ c'.csr = 0) := by
  obtain rfl | ⟨a, op, ha, hop, hchange⟩ | ⟨hr, he, htick⟩ | ⟨hr, rfl⟩ := step_channel h hc hc'
  · exact .inl rfl
  · obtain hsame | ⟨w, v, rfl, hnew⟩ := hchange.csr
    · exact .inl hsame
    · rw [s.takeRequest_cfg] at hnew
      exact .inr (.inl ⟨a, w, v, ha, hop, hnew⟩)
  · obtain ⟨-, rfl⟩ | ⟨hp, -, h1, rfl⟩ | ⟨-, -, -, rfl⟩ := Channel.tick_cases htick
    · exact .inl rfl
    · have hlow := word_le_one_iff.1 h1
      exact .inr (.inr (.inl ⟨hr, he, hp, by omega, rfl⟩))
    · exact .inl rfl
  · exact .inr (.inr (.inr ⟨hr, rfl⟩))

section Flags
variable {l : CsrLayout} {c c' : Channel}

/-- The flag CMF is a function of CSR (10_state.md R28). -/
theorem Channel.cmf_congr (h : c'.csr = c.csr) : c'.cmf l = c.cmf l := by
  rw [Channel.cmf, Channel.cmf, h]

/-- The flag OVF is a function of CSR (10_state.md R29). -/
theorem Channel.ovf_congr (h : c'.csr = c.csr) : c'.ovf l = c.ovf l := by
  rw [Channel.ovf, Channel.ovf, h]

/-- With CSR 0 the flag CMF is 0. -/
theorem Channel.cmf_of_csr_zero (h : c.csr = 0) : c.cmf l = false := by
  rw [Channel.cmf, h]
  exact BitVec.getLsbD_zero

/-- With CSR 0 the flag OVF is 0. -/
theorem Channel.ovf_of_csr_zero (h : c.csr = 0) : c.ovf l = false := by
  rw [Channel.ovf, h]
  exact BitVec.getLsbD_zero

/-- A compare match of a channel with CMF set leaves its line (41_channel_registers.md R146). -/
theorem Channel.irq_compareMatch_of_cmf (hl : l.wf) (hcmf : c.cmf l = true) :
    (c.compareMatch l).irq l = c.irq l := by
  rw [Channel.irq, Channel.irq, Channel.compareMatch_cmf hl, Channel.compareMatch_cmr hl, hcmf]

section Write
variable {m : Word} (hl : l.wf) (h : c'.csr = csrAfterWrite l c.csr m)
include hl h

/-- A CSR write keeps CMF only where it writes 1 (41_channel_registers.md R132). -/
theorem Channel.cmf_of_write : c'.cmf l = (c.cmf l && (CsrFields.ofWord l m).cmf) := by
  rw [Channel.cmf, h, ofWord_csrAfterWrite hl]
  rfl

/-- A CSR write sets OVF where it clears CMF, and otherwise keeps it only where it writes 1
(41_channel_registers.md R132). -/
theorem Channel.ovf_of_write : c'.ovf l =
    if c.cmf l && !(CsrFields.ofWord l m).cmf then true else c.ovf l && (CsrFields.ofWord l m).ovf := by
  rw [Channel.ovf, h, ofWord_csrAfterWrite hl]
  rfl

end Write

end Flags

/-- Settles O51: a line changes with its channel's CSR, and a match where CMF is set already changes none. -/
theorem onlyCsrWriteMatchOrResetChangesALine : Obligations.OnlyCsrWriteMatchOrResetChangesALine := by
  intro s t i hw h hne
  rw [step_cfg h] at hne
  obtain ⟨c, c', hc, hc', hirq⟩ := step_channel_of_line_change hw h hne
  obtain hsame | ⟨a, w, v, ha, hop, -⟩ | ⟨hr, he, hp, hrem, hcsr⟩ | ⟨hr, -⟩ := step_csr h hc hc'
  · exact absurd (Channel.irq_congr hsame).symm hirq
  · exact .inr (.inl ⟨a, w, v, ha, hop⟩)
  · refine .inr (.inr ⟨hr, c, hc, he, hp, hrem, Bool.eq_false_iff.2 fun hcmf => hirq ?_⟩)
    rw [Channel.irq_congr hcsr, Channel.irq_compareMatch_of_cmf hw.layout_wf hcmf]
  · exact .inl hr

/-- Settles O52, by what each change of CSR makes of CMF. -/
theorem compareMatchFlagChanges : Obligations.CompareMatchFlagChanges := by
  intro s t i c c' hw h hc hc' l
  have hl : l.wf := hw.layout_wf
  obtain hsame | ⟨a, w, v, ha, hop, hcsr⟩ | ⟨hr, he, hp, hrem, hcsr⟩ | ⟨hr, hcsr⟩ := step_csr h hc hc'
  case inl =>
    rw [Channel.cmf_congr hsame]
    exact ⟨fun h0 h1 => absurd (h0.symm.trans h1) nofun, fun h1 h0 => absurd (h0.symm.trans h1) nofun⟩
  case inr.inl =>
    rw [Channel.cmf_of_write hl hcsr]
    refine ⟨fun h0 h1 => ?_, fun h1 h0 => .inr ⟨a, w, v, ha, hop, ?_⟩⟩
    · simp [h0] at h1
    · simpa [h1] using h0
  case inr.inr.inl =>
    rw [Channel.cmf_congr hcsr, Channel.compareMatch_cmf hl]
    exact ⟨fun _ _ => ⟨hr, he, hp, hrem⟩, nofun⟩
  case inr.inr.inr =>
    rw [Channel.cmf_of_csr_zero hcsr]
    exact ⟨nofun, fun _ _ => .inl hr⟩

/-- Settles O53, by what each change of CSR makes of OVF. -/
theorem overflowFlagChanges : Obligations.OverflowFlagChanges := by
  intro s t i c c' hw h hc hc' l
  have hl : l.wf := hw.layout_wf
  obtain hsame | ⟨a, w, v, ha, hop, hcsr⟩ | ⟨-, -, -, -, hcsr⟩ | ⟨hr, hcsr⟩ := step_csr h hc hc'
  case inl =>
    rw [Channel.ovf_congr hsame]
    exact ⟨fun h0 h1 => absurd (h0.symm.trans h1) nofun, fun h1 h0 => absurd (h0.symm.trans h1) nofun⟩
  case inr.inl =>
    rw [Channel.ovf_of_write hl hcsr]
    refine ⟨fun h0 h1 => ⟨a, w, v, ha, hop, ?_⟩, fun h1 h0 => .inr ⟨a, w, v, ha, hop, ?_⟩⟩
    · simpa [h0] using h1
    · simpa [h1, and_comm] using h0
  case inr.inr.inl =>
    rw [Channel.ovf_congr hcsr, Channel.compareMatch_ovf hl]
    exact ⟨fun h0 h1 => absurd (h0.symm.trans h1) nofun, fun h1 h0 => absurd (h0.symm.trans h1) nofun⟩
  case inr.inr.inr =>
    rw [Channel.ovf_of_csr_zero hcsr]
    exact ⟨nofun, fun _ _ => .inl hr⟩

end Sys2Proof.Machine
end

section
/-! The operations of the register block on one machine: what each read and each write leaves
(41_channel_registers.md, 42_controller.md sections 2 and 3). -/

namespace Sys2Proof.Machine

/-! ## Channel operations without regard to the access -/

section OnChannel
variable {s : State} {ch : Nat} {a a' : Access} {run run' : Channel → Result}

/-- On an existing channel the access does not matter (42_controller.md R174). -/
theorem onChannel_of_getElem? {c : Channel} (hc : s.ctrl.chans[ch]? = some c) :
    onChannel s ch a run = whenLive s (run c) := by
  rw [onChannel, hc]

/-- Of the access a channel operation reads what a fault records of it (60_exceptions.md R200). -/
theorem onChannel_congr (ha : faultOf .channelOutOfRange a = faultOf .channelOutOfRange a')
    (hrun : ∀ c, run c = run' c) : onChannel s ch a run = onChannel s ch a' run' := by
  rw [onChannel, onChannel, ha, funext hrun]

end OnChannel

/-- Settles O31: each of the six channel operations asks for its channel first. -/
theorem missingChannelFaults : Obligations.MissingChannelFaults := by
  intro s ch w v i hl hc hi
  simp only [List.mem_cons, List.not_mem_nil, or_false] at hi
  obtain rfl | rfl | rfl | rfl | rfl | rfl := hi
  all_goals exact ⟨_, onChannel_of_none hl hc, ⟨rfl, rfl, rfl⟩, rfl, rfl⟩

/-- Settles O26: a write merges its data, and the merge uses the low bits only. -/
theorem writesUseOnlyTheLowDataBits : Obligations.WritesUseOnlyTheLowDataBits := by
  intro s ch w v v' h
  have hm (full : Word) : merge full v w = merge full v' w := merge_congr h
  refine ⟨?_, onChannel_congr rfl fun c => ?_, onChannel_congr rfl fun c => ?_, onChannel_congr rfl fun c => ?_⟩
  · simp only [exec, execSsrWr, hm]
  · rw [hm]
  · rw [hm]
  · rw [hm]

/-! ## Reads -/

/-- A read of an existing register answers and does no more (20_memory.md R60). -/
theorem exec_read {i : Instr} {s t : State} (hw : s.Wf) (hi : i.wf s.cfg.channelCount) (hdir : i.dir = .read)
    (h : exec i s = .next t) : ∃ full w, t = s.answer full w := by
  obtain ⟨hl, -⟩ := exec_cases h
  have answered {full : Word} {w : Width} (hexec : exec i s = .next (s.answer full w)) :
      ∃ full w, t = s.answer full w := ⟨full, w, by cases h.symm.trans hexec; rfl⟩
  cases i with
  | ssrRd w => exact answered (exec_ssrRd_of_live hl)
  | csrRd ch w => obtain ⟨c, hc⟩ := hw.channel hi; exact answered (exec_csrRd_of_some hl hc)
  | cntRd ch w => obtain ⟨c, hc⟩ := hw.channel hi; exact answered (exec_cntRd_of_some hl hc)
  | corRd ch w => obtain ⟨c, hc⟩ := hw.channel hi; exact answered (exec_corRd_of_some hl hc)
  | ssrWr w v => cases hdir
  | csrWr ch w v => cases hdir
  | cntWr ch w v => cases hdir
  | corWr ch w v => cases hdir

/-- Settles O23: an answered read commits the controller it found (`exec_read`). -/
theorem readsHaveNoSideEffect : Obligations.ReadsHaveNoSideEffect := by
  intro s t i hw hi hdir h
  obtain ⟨full, w, rfl⟩ := exec_read hw hi hdir h
  exact ⟨rfl, s.keeps_answer full w, rfl, changedLines_eq_nil fun _ => rfl⟩

/-! ## Writes of one channel -/

section WriteChannel
variable {s : State} {ch : Nat} {c c' : Channel} (hc : s.ctrl.chans[ch]? = some c)
include hc

/-- A channel write leaves the written channel in its place. -/
theorem State.writeChannel_getElem?_self : (s.writeChannel ch c').ctrl.chans[ch]? = some c' :=
  List.getElem?_set_self (List.getElem?_eq_some_iff.1 hc).1

/-- A channel write that leaves CSR changes no line (41_channel_registers.md R146). -/
theorem State.writeChannel_lineChanges (h : c'.csr = c.csr) : (s.writeChannel ch c').out.lineChanges = [] :=
  changedLines_eq_nil (Controller.irq_setChannel hc h)

end WriteChannel

/-- A channel write leaves SSR, the marks, the number of channels and every other channel (41_channel_registers.md,
sections 2 to 4). -/
theorem State.writeChannel_frame (s : State) (ch : Nat) (c' : Channel) :
    let t := s.writeChannel ch c'
    t.ctrl.ssr = s.ctrl.ssr ∧ t.ctrl.fault = s.ctrl.fault ∧ t.ctrl.refused = s.ctrl.refused ∧
    t.ctrl.chans.length = s.ctrl.chans.length ∧ ∀ j, j ≠ ch → t.ctrl.chans[j]? = s.ctrl.chans[j]? :=
  ⟨rfl, rfl, rfl, List.length_set, fun _ hj => List.getElem?_set_ne hj.symm⟩

/-- Settles O32: each of the three writes replaces its channel, by the update of its register. -/
theorem channelWriteFrame : Obligations.ChannelWriteFrame := by
  intro s t ch w v i c hi hc h
  obtain ⟨hl, -⟩ := exec_cases h
  have hkeeps := exec_keeps h
  simp only [List.mem_cons, List.not_mem_nil, or_false] at hi
  obtain rfl | rfl | rfl := hi
  · cases h.symm.trans (exec_csrWr_of_some hl hc)
    obtain ⟨hssr, hfault, hrefused, hlen, hothers⟩ := s.nextDraw.writeChannel_frame ch _
    exact ⟨hkeeps, hssr, hfault, hrefused, hlen, hothers, _, State.writeChannel_getElem?_self hc,
      fun _ => ⟨rfl, rfl⟩, nofun, nofun⟩
  · cases h.symm.trans (exec_cntWr_of_some hl hc)
    obtain ⟨hssr, hfault, hrefused, hlen, hothers⟩ := s.writeChannel_frame ch _
    exact ⟨hkeeps, hssr, hfault, hrefused, hlen, hothers, _, State.writeChannel_getElem?_self hc,
      nofun, fun _ => ⟨rfl, rfl⟩, nofun⟩
  · cases h.symm.trans (exec_corWr_of_some hl hc)
    obtain ⟨hssr, hfault, hrefused, hlen, hothers⟩ := s.writeChannel_frame ch _
    exact ⟨hkeeps, hssr, hfault, hrefused, hlen, hothers, _, State.writeChannel_getElem?_self hc,
      nofun, nofun, fun _ => rfl⟩

/-! ### CSR -/

section CsrWrite
variable {l : CsrLayout} {c c' : Channel} {m : Word} (hl : l.wf) (h : c'.csr = csrAfterWrite l c.csr m)
include hl h

/-- A CSR write takes CMR from the merged value (41_channel_registers.md R132). -/
theorem Channel.cmr_of_write : c'.cmr l = (CsrFields.ofWord l m).cmr := by
  rw [Channel.cmr, h, ofWord_csrAfterWrite hl]
  rfl

/-- A CSR write takes CKS from the merged value (41_channel_registers.md R132). -/
theorem Channel.cks_of_write : c'.cks l = (CsrFields.ofWord l m).cks := by
  rw [Channel.cks, h, ofWord_csrAfterWrite hl]
  rfl

/-- A CSR write that writes 0 to CMF deasserts the line (41_channel_registers.md R132, 10_state.md R36). -/
theorem Channel.irq_of_write_cmf (hm : (CsrFields.ofWord l m).cmf = false) : c'.irq l = false := by
  rw [Channel.irq, Channel.cmf_of_write hl h, hm, Bool.and_false, Bool.false_and]

end CsrWrite

/-- Settles O28: the written channel's fields are those of the field algebra, and its phase is drawn below the divisor
they give. -/
theorem csrWriteCompletes : Obligations.CsrWriteCompletes := by
  intro s ch w v c hwf hl hc l m
  obtain ⟨-, -, hlayout⟩ := hwf
  have hcks : (CsrFields.ofWord l (csrAfterWrite l c.csr (merge c.csr v w))).cks = m.cks := by
    rw [ofWord_csrAfterWrite hlayout]
    rfl
  refine ⟨_, _, exec_csrWr_of_some hl hc, ⟨rfl, rfl, rfl⟩, rfl, rfl, rfl, rfl, rfl,
    CsrFields.toWord_implemented hlayout _, Channel.cmf_of_write hlayout rfl, ?ovf, Channel.cmr_of_write hlayout rfl,
    Channel.cks_of_write hlayout rfl, ?psc, ?psc_lt⟩
  case ovf =>
    rw [Channel.ovf_of_write hlayout rfl]
    simp [m, l]
  case psc => rw [Channel.setCsr_psc, hcks]
  case psc_lt =>
    rw [Channel.setCsr_psc, hcks]
    split_ifs
    · exact drawPhase_lt _ _ (divisor_pos _)
    · exact divisor_pos _

/-- A CSR write goes on with the written channel in its place (41_channel_registers.md R133). -/
theorem exec_csrWr_written {s : State} {ch : Nat} {c : Channel} (hl : s.Live) (hc : s.ctrl.chans[ch]? = some c)
    (w : Width) (v : Word) : ∃ t c', exec (.csrWr ch w v) s = .next t ∧ t.Live ∧ t.cfg = s.cfg ∧
      t.ctrl.chans[ch]? = some c' ∧ c'.csr = csrAfterWrite s.cfg.layout c.csr (merge c.csr v w) :=
  ⟨_, _, exec_csrWr_of_some hl hc, hl, rfl, State.writeChannel_getElem?_self hc, rfl⟩

/-- Settles O38: the first write clears CMF and so sets OVF, the second finds CMF clear and so clears OVF. -/
theorem acknowledgeTakesTwoWrites : Obligations.AcknowledgeTakesTwoWrites := by
  intro s ch v c hwf hl hc l hcmf hv0 hv1
  obtain ⟨-, -, hlayout⟩ := hwf
  obtain ⟨t, c1, ht, hlt, hcfg, hc1, hcsr1⟩ := exec_csrWr_written hl hc .word v
  obtain ⟨u, c2, hu, -, -, hc2, hcsr2⟩ := exec_csrWr_written hlt hc1 .word v
  rw [merge_word] at hcsr1 hcsr2
  rw [hcfg] at hcsr2
  have hcmf1 : c1.cmf l = false := by rw [Channel.cmf_of_write hlayout hcsr1, hv0, Bool.and_false]
  have hcmf2 : c2.cmf l = false := by rw [Channel.cmf_of_write hlayout hcsr2, hv0, Bool.and_false]
  refine ⟨t, u, c1, c2, ht, hu, hc1, hcmf1, ?ovf1, ?irq1, hc2, hcmf2, ?ovf2, ?irq2⟩
  case ovf1 => rw [Channel.ovf_of_write hlayout hcsr1, hcmf, hv0]; rfl
  case ovf2 => rw [Channel.ovf_of_write hlayout hcsr2, hcmf1, hv1, Bool.and_false]; rfl
  case irq1 => rw [Controller.irq_of_getElem? hc1, Channel.irq_of_write_cmf hlayout hcsr1 hv0]
  case irq2 => rw [Controller.irq_of_getElem? hc2, Channel.irq_of_write_cmf hlayout hcsr2 hv0]

/-- Settles O39: bits 15 and 14 of the merged value are the register's own. -/
theorem byteCsrWriteKeepsFlags : Obligations.ByteCsrWriteKeepsFlags := by
  intro s t ch v c hwf hlayout hc h
  obtain ⟨-, -, hl⟩ := hwf
  rw [hlayout] at hl
  obtain ⟨hlive, -⟩ := exec_cases h
  cases h.symm.trans (exec_csrWr_of_some hlive hc)
  rw [hlayout]
  have hcmf : (CsrFields.ofWord defaultLayout (merge c.csr v .byte)).cmf = c.cmf defaultLayout :=
    merge_getLsbD c.csr v .byte 15
  have hovf : (CsrFields.ofWord defaultLayout (merge c.csr v .byte)).ovf = c.ovf defaultLayout :=
    merge_getLsbD c.csr v .byte 14
  refine ⟨_, State.writeChannel_getElem?_self hc, ?_, ?_⟩
  · rw [Channel.cmf_of_write hl rfl, hcmf, Bool.and_self]
  · rw [Channel.ovf_of_write hl rfl, hcmf, hovf, Bool.and_not_self, Bool.and_self]
    rfl

end Sys2Proof.Machine
end

section
/-! The count and compare registers: writes, their corner cases, and what is read after them (41_channel_registers.md
sections 3 and 4, 20_memory.md section 2). -/

namespace Sys2Proof.Machine

/-! ## The count a CNT write leaves -/

section SetCount
variable {c : Channel} {m : Word}

/-- A count above COR reloads the decrementer (41_channel_registers.md R141). -/
theorem Channel.setCount_remaining_of_lt (h : c.cor < m) : (c.setCount m).remaining = c.cor := if_pos h

/-- A count of at most COR leaves what is missing to COR (41_channel_registers.md R140). -/
theorem Channel.setCount_remaining_of_le (h : m ≤ c.cor) : (c.setCount m).remaining = c.cor - m :=
  if_neg (BitVec.not_lt.2 h)

/-- The decrementer after a CNT write as a number (41_channel_registers.md R140). -/
theorem Channel.setCount_remaining_toNat (c : Channel) (m : Word) : (c.setCount m).remaining.toNat =
    if c.cor.toNat < m.toNat then c.cor.toNat else c.cor.toNat - m.toNat := by
  split_ifs with h
  · rw [Channel.setCount_remaining_of_lt h]
  · have hle : m ≤ c.cor := Nat.not_lt.1 h
    rw [Channel.setCount_remaining_of_le hle, BitVec.toNat_sub_of_le hle]

/-- The count read after a CNT write of an enabled channel (41_channel_registers.md R141). -/
theorem Channel.setCount_count (c : Channel) (m : Word) :
    (c.setCount m).count true = if c.cor < m then 0 else m := by
  show c.cor - (c.setCount m).remaining = _
  split_ifs with h
  · rw [Channel.setCount_remaining_of_lt h]
    exact BitVec.sub_self c.cor
  · rw [Channel.setCount_remaining_of_le (BitVec.not_lt.1 h)]
    bv_omega

end SetCount

/-- Settles O29: the channel written is the one found, with the count set. -/
theorem cntWriteCompletes : Obligations.CntWriteCompletes := by
  intro s ch w v c hl hc m
  exact ⟨_, _, exec_cntWr_of_some hl hc, ⟨rfl, rfl, rfl⟩, rfl, rfl, rfl, State.writeChannel_lineChanges hc rfl,
    rfl, rfl, rfl, Channel.setCount_remaining_toNat c m⟩

/-- Settles O30: the channel written is the one found, with the limit set. -/
theorem corWriteCompletes : Obligations.CorWriteCompletes := by
  intro s ch w v c hl hc
  exact ⟨_, _, exec_corWr_of_some hl hc, ⟨rfl, rfl, rfl⟩, rfl, rfl, rfl, State.writeChannel_lineChanges hc rfl,
    rfl, rfl, rfl, rfl⟩

/-! ## Reads after a write -/

section Reread
variable {s : State} {ch : Nat} {c : Channel} (hl : s.Live) (hc : s.ctrl.chans[ch]? = some c)
include hl hc

/-- A 4-byte CNT read answers the whole count (41_channel_registers.md R139). -/
theorem exec_cntRd_word_reply :
    ∃ u, exec (.cntRd ch .word) s = .next u ∧ u.out.reply = some (.data (c.count (s.ctrl.enabled ch))) :=
  ⟨_, exec_cntRd_of_some hl hc, by rw [State.answer_reply, narrowRead_word]⟩

/-- A 4-byte COR read answers COR whole (41_channel_registers.md R143). -/
theorem exec_corRd_word_reply :
    ∃ u, exec (.corRd ch .word) s = .next u ∧ u.out.reply = some (.data c.cor) :=
  ⟨_, exec_corRd_of_some hl hc, by rw [State.answer_reply, narrowRead_word]⟩

/-- A 4-byte CSR read answers CSR whole (41_channel_registers.md R131). -/
theorem exec_csrRd_word_reply :
    ∃ u, exec (.csrRd ch .word) s = .next u ∧ u.out.reply = some (.data c.csr) :=
  ⟨_, exec_csrRd_of_some hl hc, by rw [State.answer_reply, narrowRead_word]⟩

end Reread

/-- Settles O33: each corner case is above COR or not, and the count is read back from the new decrementer. -/
theorem cntWriteCornerCases : Obligations.CntWriteCornerCases := by
  intro s t ch m c _ hc h
  obtain ⟨hl, -⟩ := exec_cases h
  cases h.symm.trans (exec_cntWr_of_some hl hc)
  rw [merge_word]
  have hc' := State.writeChannel_getElem?_self (c' := c.setCount m) hc
  refine ⟨_, hc', ?zero, ?cor, Channel.setCount_remaining_of_lt, fun hle => ?le, fun he => ?reread⟩
  case zero =>
    rintro rfl
    rw [Channel.setCount_remaining_of_le (Nat.zero_le _)]
    exact BitVec.sub_zero c.cor
  case cor =>
    rintro rfl
    rw [Channel.setCount_remaining_of_le (BitVec.le_refl c.cor)]
    exact BitVec.sub_self c.cor
  case le => rw [Channel.setCount_remaining_of_le hle, BitVec.toNat_sub_of_le hle]
  case reread =>
    obtain ⟨u, hu, hreply⟩ := exec_cntRd_word_reply (s := s.writeChannel ch (c.setCount m)) hl hc'
    refine ⟨u, hu, hreply.trans ?_⟩
    rw [State.writeChannel_ctrl, Controller.setChannel_enabled, he, Channel.setCount_count]

/-- After a COR write the elapsed count is 0 (41_channel_registers.md R144). -/
theorem Channel.setLimit_count (c : Channel) (m : Word) (enabled : Bool) : (c.setLimit m).count enabled = 0 := by
  cases enabled with
  | false => rfl
  | true => exact BitVec.sub_self m

/-- Settles O35: the write leaves the decrementer at COR, so that the elapsed count is 0. -/
theorem corWriteThenReads : Obligations.CorWriteThenReads := by
  intro s t ch w v c hc h
  obtain ⟨hl, -⟩ := exec_cases h
  cases h.symm.trans (exec_corWr_of_some hl hc)
  have hc' := State.writeChannel_getElem?_self (c' := c.setLimit (merge c.cor v w)) hc
  have hl' : (s.writeChannel ch (c.setLimit (merge c.cor v w))).Live := hl
  refine ⟨?_, exec_corRd_word_reply hl' hc'⟩
  rw [← Channel.setLimit_count c (merge c.cor v w) (s.ctrl.enabled ch)]
  exact exec_cntRd_word_reply hl' hc'

/-! ## Narrow CNT writes -/

/-- Merging with 0 leaves the low bits of the data (20_memory.md R56). -/
theorem merge_zero (v : Word) (w : Width) : merge 0 v w = narrowRead v w := by
  rw [merge_eq_masked, narrowRead]
  exact (congrArg (· ||| _) BitVec.zero_and).trans BitVec.zero_or

/-- Settles O34: a disabled channel reads 0, so the write merges with 0. -/
theorem narrowCntWriteOfDisabledChannel : Obligations.NarrowCntWriteOfDisabledChannel := by
  intro s ch w v c hc he
  have hcount : c.count (s.ctrl.enabled ch) = 0 := by rw [he]; rfl
  refine (onChannel_of_getElem? hc).trans (Eq.trans ?_ (onChannel_of_getElem? hc).symm)
  rw [hcount, merge_word, merge_zero]

/-- A machine whose one channel, enabled, has COR 760 and elapsed count 700. -/
def nearlyElapsed : State :=
  { cfg := { channelCount := 1, baseHz := 1, layout := defaultLayout, resetRemaining := .limit }
    ctrl := { ssr := 1, chans := [{ csr := 0, cor := 760, remaining := 60, psc := 0 }], fault := none, refused := none }
    inbox := []
    envSeq := 0
    draws := 0
    out := Output.quiet }

theorem nearlyElapsed_wf : nearlyElapsed.Wf := by decide
theorem nearlyElapsed_live : nearlyElapsed.Live := by decide

/-- Refutes O37: on `nearlyElapsed` a byte write of 0xFF merges to 767, above COR, and reloads the decrementer with 760;
the same write then merges with the elapsed count 0 to 255 and leaves the decrementer 505. -/
theorem not_narrowCntWriteIsIdempotent : ¬ Obligations.NarrowCntWriteIsIdempotent := by
  intro h
  have first := exec_cntWr_of_some (ch := 0) (w := .byte) (v := 0xFF) nearlyElapsed_live rfl
  have second := exec_cntWr_of_some (ch := 0) (w := .byte) (v := 0xFF)
    (s := nearlyElapsed.writeChannel 0 { csr := 0, cor := 760, remaining := 760, psc := 0 }) nearlyElapsed_live rfl
  have hctrl := h _ _ _ 0 .byte 0xFF nearlyElapsed_wf (by decide) first second
  have hremaining := congrArg (fun k : Controller => k.chans.map Channel.remaining) hctrl
  have hvalues : [505#32] = [760#32] := hremaining
  exact absurd hvalues (by decide)

end Sys2Proof.Machine
end

section
/-! Writes of the start/stop register, and which writes are idempotent (42_controller.md section 3, 20_memory.md
section 2). -/

namespace Sys2Proof.Machine

/-! ## What an SSR write makes of the controller -/

section WriteSsr
variable {n : Nat} {l : CsrLayout} {seq : Nat} {k : Controller}

/-- An SSR write makes its transition of each channel (42_controller.md R176). -/
theorem Controller.writeSsr_getElem? {m : Word} {i : Nat} {c : Channel} (hc : k.chans[i]? = some c) :
    (k.writeSsr n l seq m).chans[i]? = some (ssrTransition l seq k.ssr m i c) := by
  rw [Controller.writeSsr_chans, List.getElem?_mapIdx, hc, Option.map_some]

/-- An SSR write changes no line (42_controller.md R176). -/
theorem Controller.irq_writeSsr (m : Word) (i : Nat) : (k.writeSsr n l seq m).irq l i = k.irq l i := by
  cases hc : k.chans[i]? with
  | some c =>
    rw [Controller.irq_of_getElem? hc, Controller.irq_of_getElem? (Controller.writeSsr_getElem? hc),
      Channel.irq_congr (ssrTransition_csr ..)]
  | none =>
    rw [Controller.irq_of_none hc, Controller.irq_of_none]
    rw [Controller.writeSsr_chans, List.getElem?_mapIdx, hc, Option.map_none]

/-- Of the value written to SSR only the bits of the channels matter (42_controller.md R176). -/
theorem Controller.writeSsr_congr {m m' : Word} (hn : n ≤ 32) (hlen : k.chans.length ≤ n)
    (h : ∀ j, j < n → m.getLsbD j = m'.getLsbD j) : k.writeSsr n l seq m = k.writeSsr n l seq m' := by
  have hssr : m &&& lowMask n = m' &&& lowMask n := by
    apply BitVec.eq_of_getLsbD_eq
    intro j _
    rw [BitVec.getLsbD_and, BitVec.getLsbD_and, lowMask_getLsbD hn]
    by_cases hj : j < n
    · rw [h j hj]
    · simp [hj]
  have hchans : k.chans.mapIdx (ssrTransition l seq k.ssr m) = k.chans.mapIdx (ssrTransition l seq k.ssr m') := by
    refine List.mapIdx_eq_mapIdx_iff.2 fun i hi => ?_
    rw [ssrTransition, ssrTransition, h i (hi.trans_le hlen)]
  rw [Controller.writeSsr, Controller.writeSsr, hssr, hchans]

/-- The phase an SSR write leaves channel `i`, by the channel's enable bit before and after it (42_controller.md R176). -/
theorem Controller.writeSsr_psc (hn : n ≤ 32) (m : Word) {i : Nat} (hi : i < n) (c : Channel) :
    (ssrTransition l seq k.ssr m i c).psc =
      if (k.writeSsr n l seq m).enabled i = k.enabled i then c.psc
      else if (k.writeSsr n l seq m).enabled i then drawPhase seq i (c.div l) else 0 := by
  rw [Controller.writeSsr_enabled hn, decide_eq_true hi, Bool.true_and, ssrTransition_psc]
  rfl

/-- A bit written with its current value causes no transition (42_controller.md R176). -/
theorem ssrTransition_of_eq {old new : Word} {i : Nat} (h : new.getLsbD i = old.getLsbD i) (c : Channel) :
    ssrTransition l seq old new i c = c := by
  rw [ssrTransition, h, Bool.and_not_self]
  simp

/-- Writing the same value to SSR again leaves the controller, whatever the draws (20_memory.md R60). -/
theorem Controller.writeSsr_writeSsr (m : Word) (seq' : Nat) (hn : n ≤ 32) (hlen : k.chans.length ≤ n) :
    (k.writeSsr n l seq m).writeSsr n l seq' m = k.writeSsr n l seq m := by
  have hchans : (k.writeSsr n l seq m).chans.mapIdx (ssrTransition l seq' (m &&& lowMask n) m) =
      (k.writeSsr n l seq m).chans := by
    refine List.mapIdx_eq_iff.2 fun i => ?_
    cases hc : (k.writeSsr n l seq m).chans[i]? with
    | none => rfl
    | some c =>
      have hi : i < n := by
        have hlt := (List.getElem?_eq_some_iff.1 hc).1
        rw [Controller.writeSsr_chans, List.length_mapIdx] at hlt
        exact hlt.trans_le hlen
      have hbit : m.getLsbD i = (m &&& lowMask n).getLsbD i := by
        rw [BitVec.getLsbD_and, lowMask_getLsbD hn, decide_eq_true hi, Bool.and_true]
      rw [Option.map_some, ssrTransition_of_eq hbit]
  exact congrArg (fun cs => { k.writeSsr n l seq m with chans := cs }) hchans

end WriteSsr

/-! ## Completion -/

/-- Settles O27: for a channel below N the enable bit after the write is the merged value's, and with the bit before it
decides the transition. -/
theorem ssrWriteCompletes : Obligations.SsrWriteCompletes := by
  intro s w v hw hl
  have henabled := Controller.writeSsr_enabled hw.channelCount_le s.cfg.layout s.draws s.ctrl (merge s.ctrl.ssr v w)
  refine ⟨_, exec_ssrWr_of_live hl, ⟨rfl, rfl, rfl⟩, rfl, rfl, changedLines_eq_nil (Controller.irq_writeSsr _), hl,
    henabled, List.length_mapIdx, fun i c hc => ?_⟩
  have hpsc := Controller.writeSsr_psc (l := s.cfg.layout) (seq := s.draws) (k := s.ctrl) hw.channelCount_le
    (merge s.ctrl.ssr v w) (hw.channel_lt hc) c
  refine ⟨_, Controller.writeSsr_getElem? hc, ssrTransition_csr .., ssrTransition_cor .., ssrTransition_remaining ..,
    fun hoff hon => ?rise, fun hon hoff => ?fall, fun heq => hpsc.trans (if_pos heq.symm)⟩
  case rise =>
    rw [State.commit_ctrl] at hon
    rw [hoff, hon, if_neg nofun, if_pos rfl] at hpsc
    exact ⟨hpsc, hpsc ▸ drawPhase_lt _ _ (Channel.div_pos _ c)⟩
  case fall =>
    rw [State.commit_ctrl] at hoff
    rw [hoff, hon, if_neg nofun, if_neg nofun] at hpsc
    exact hpsc

/-- Settles O40: below bit 8 the data of every width is the merged value. -/
theorem ssrWriteWidthsAgree : Obligations.SsrWriteWidthsAgree := by
  intro s w v hw h8
  have hctrl : s.ctrl.writeSsr s.cfg.channelCount s.cfg.layout s.draws (merge s.ctrl.ssr v w) =
      s.ctrl.writeSsr s.cfg.channelCount s.cfg.layout s.draws v := by
    refine Controller.writeSsr_congr hw.channelCount_le hw.chans_length.le fun j hj => ?_
    have hj8 : j < 8 * w.bytes := by cases w <;> simp only [Width.bytes] <;> omega
    rw [merge_getLsbD, if_pos hj8]
  simp only [exec, execSsrWr, hctrl, merge_word]

/-- Settles O41: the write starts the channel and leaves its decrementer, from which the count is read. -/
theorem resumeContinuesFromFrozenCount : Obligations.ResumeContinuesFromFrozenCount := by
  intro s t ch v c hw hc hoff hv h
  obtain ⟨hl, -⟩ := exec_cases h
  cases h.symm.trans (exec_ssrWr_of_live hl)
  rw [merge_word]
  have hstopped := exec_cntRd_word_reply hl hc
  rw [hoff] at hstopped
  have hc' : (s.ctrl.writeSsr s.cfg.channelCount s.cfg.layout s.draws v).chans[ch]? = some _ :=
    Controller.writeSsr_getElem? hc
  have hon : (s.ctrl.writeSsr s.cfg.channelCount s.cfg.layout s.draws v).enabled ch = true := by
    rw [Controller.writeSsr_enabled hw.channelCount_le, hv, decide_eq_true (hw.channel_lt hc)]
    rfl
  have hl' : (s.nextDraw.commit (s.ctrl.writeSsr s.cfg.channelCount s.cfg.layout s.draws v) (some .written)).Live := hl
  have hrunning := exec_cntRd_word_reply hl' hc'
  rw [State.commit_ctrl, hon, Channel.count, if_pos rfl, ssrTransition_cor, ssrTransition_remaining] at hrunning
  exact ⟨hstopped, hrunning, _, hc', ssrTransition_remaining ..⟩

/-! ## Idempotence -/

/-- Replacing a channel twice is replacing it by the second. -/
theorem Controller.setChannel_setChannel (k : Controller) (ch : Nat) (c c' : Channel) :
    (k.setChannel ch c).setChannel ch c' = k.setChannel ch c' := by
  rw [Controller.setChannel, Controller.setChannel, Controller.setChannel, List.set_set]

/-- An SSR write of any width made twice leaves what it left once: below N the second merge is the first
(20_memory.md R60). -/
theorem exec_ssrWr_twice {s t u : State} {w : Width} {v : Word} (hw : s.Wf) (ht : exec (.ssrWr w v) s = .next t)
    (hu : exec (.ssrWr w v) t = .next u) : u.ctrl = t.ctrl := by
  obtain ⟨hl, -⟩ := exec_cases ht
  obtain ⟨hlt, -⟩ := exec_cases hu
  cases hu.symm.trans (exec_ssrWr_of_live hlt)
  cases ht.symm.trans (exec_ssrWr_of_live hl)
  have hn := hw.channelCount_le
  have hlen := hw.chans_length.le
  have hlen' : (s.ctrl.writeSsr s.cfg.channelCount s.cfg.layout s.draws (merge s.ctrl.ssr v w)).chans.length ≤
      s.cfg.channelCount := by rwa [Controller.writeSsr_chans, List.length_mapIdx]
  refine (Controller.writeSsr_congr hn hlen' fun j hj => ?_).trans (Controller.writeSsr_writeSsr _ _ hn hlen)
  show (merge (merge s.ctrl.ssr v w &&& lowMask s.cfg.channelCount) v w).getLsbD j = (merge s.ctrl.ssr v w).getLsbD j
  rw [merge_getLsbD, BitVec.getLsbD_and, lowMask_getLsbD hn, decide_eq_true hj, Bool.and_true, merge_getLsbD]
  split_ifs <;> rfl

/-- Settles O36: the second write finds the merged value of the first, and sets what it set. -/
theorem writesAreIdempotent : Obligations.WritesAreIdempotent := by
  intro s t u ch w v i hw hi hwf ht hu
  obtain ⟨hl, -⟩ := exec_cases ht
  obtain ⟨hlt, -⟩ := exec_cases hu
  simp only [List.mem_cons, List.not_mem_nil, or_false] at hi
  obtain rfl | rfl | rfl := hi
  · exact exec_ssrWr_twice hw ht hu
  · obtain ⟨c, hc⟩ := hw.channel hwf
    cases ht.symm.trans (exec_cntWr_of_some hl hc)
    have hc' := State.writeChannel_getElem?_self (c' := c.setCount (merge (c.count (s.ctrl.enabled ch)) v .word)) hc
    cases hu.symm.trans (exec_cntWr_of_some hlt hc')
    exact Controller.setChannel_setChannel ..
  · obtain ⟨c, hc⟩ := hw.channel hwf
    cases ht.symm.trans (exec_corWr_of_some hl hc)
    have hc' := State.writeChannel_getElem?_self (c' := c.setLimit (merge c.cor v w)) hc
    cases hu.symm.trans (exec_corWr_of_some hlt hc')
    rw [Channel.setLimit_cor, merge_merge]
    exact Controller.setChannel_setChannel ..

end Sys2Proof.Machine
end

section
/-! The machine right after construction, and the controller saved and restored (10_state.md section 6,
95_test_vectors.md L1-10). -/

namespace Sys2Proof.Machine

/-! ## Right after construction -/

/-- The decrementer at reset is one of the two values the spec leaves open (10_state.md R39). -/
theorem remainingAtReset_cases (r : ResetRemaining) : remainingAtReset r = 0 ∨ remainingAtReset r = 0xFFFFFFFF#32 := by
  cases r with
  | zero => exact .inl rfl
  | limit => exact .inr rfl

/-- Settles O14: every channel is the channel at reset. -/
theorem resetMachineState : Obligations.ResetMachineState := by
  refine ⟨rfl, rfl, rfl, rfl, Controller.reset_chans_length, fun c hc => ?_⟩
  obtain rfl := Controller.eq_reset_of_mem_chans hc
  exact ⟨rfl, rfl, rfl, remainingAtReset_cases _⟩

/-- Each channel below N of a newly constructed controller is the channel at reset (10_state.md R39). -/
theorem Controller.reset_getElem? {cfg : Config} {ch : Nat} (h : ch < cfg.channelCount) :
    (Controller.reset cfg).chans[ch]? = some (Channel.reset cfg) := List.getElem?_replicate_of_lt h

/-- Settles O15: every channel is disabled and as reset leaves it, and the machine works. -/
theorem resetStateReads : Obligations.ResetStateReads := by
  intro cfg ch hw hch
  have hl : (State.resetOf cfg).Live := ⟨hw, rfl, rfl⟩
  have hc : (State.resetOf cfg).ctrl.chans[ch]? = some (Channel.reset cfg) := Controller.reset_getElem? hch
  have hoff : (State.resetOf cfg).ctrl.enabled ch = false := BitVec.getLsbD_zero
  refine ⟨⟨_, exec_ssrRd_of_live hl, by rw [State.answer_reply, narrowRead_word]; rfl⟩,
    exec_csrRd_word_reply hl hc, ?_, exec_corRd_word_reply hl hc⟩
  have hcnt := exec_cntRd_word_reply hl hc
  rw [hoff] at hcnt
  exact hcnt

/-! ## Save and restore -/

section Restore
variable {l : CsrLayout} {seq i : Nat} {ssr : Word} {c : Channel}

/-- The decrementer is COR less the count saved, whatever its value (10_state.md R38). -/
@[simp] theorem SavedChannel.restore_save_remaining : (c.save.restore l seq ssr i).remaining = c.remaining := by
  show c.cor - (c.cor - c.remaining) = c.remaining
  bv_omega

/-- A channel restored is saved as it was (10_state.md R38). -/
theorem SavedChannel.save_restore_save : (c.save.restore l seq ssr i).save = c.save := by
  rw [Channel.save, SavedChannel.restore_save_remaining]
  rfl

/-- A channel restored is in its domain: its phase is drawn below its divisor, or 0 (10_state.md R35, R38). -/
theorem Channel.Wf.restore (h : Channel.Wf l (ssr.getLsbD i) c) :
    Channel.Wf l (ssr.getLsbD i) (c.save.restore l seq ssr i) := by
  obtain ⟨hres, hle, -, -⟩ := h
  refine ⟨hres, by rwa [SavedChannel.restore_save_remaining], ?_, fun hoff => ?_⟩
  · show (if ssr.getLsbD i then drawPhase seq i (divisor _) else 0) < divisor _
    split_ifs
    · exact drawPhase_lt seq i (divisor_pos _)
    · exact divisor_pos _
  · rw [SavedChannel.restore, hoff]
    rfl

end Restore

section RestoreController
variable {l : CsrLayout} {seq : Nat} {k : Controller}

/-- Each channel of a controller restored is that of the controller saved, restored (10_state.md R38). -/
theorem Saved.restore_save_getElem? (i : Nat) :
    (k.save.restore l seq).chans[i]? = k.chans[i]?.map fun c => c.save.restore l seq k.ssr i := by
  show ((k.chans.map Channel.save).mapIdx _)[i]? = _
  rw [List.getElem?_mapIdx, List.getElem?_map, Option.map_map]
  rfl

/-- A controller restored is saved as it was (10_state.md R38). -/
theorem Saved.save_restore_save : (k.save.restore l seq).save = k.save := by
  have hchans : (k.save.restore l seq).chans.map Channel.save = k.chans.map Channel.save := by
    apply List.ext_getElem?
    intro i
    rw [List.getElem?_map, List.getElem?_map, Saved.restore_save_getElem?, Option.map_map]
    exact congrArg (fun f => Option.map f _) (funext fun c => SavedChannel.save_restore_save)
  rw [Controller.save, hchans]
  rfl

/-- A controller restored is in its domain (10_state.md R38). -/
theorem Controller.Wf.restore {cfg : Config} (hn : cfg.channelCount ≤ 32) (h : k.Wf cfg) :
    (k.save.restore cfg.layout seq).Wf cfg := by
  rw [Controller.wf_iff hn] at h ⊢
  obtain ⟨hlen, hssr, hchans, -⟩ := h
  refine ⟨?_, hssr, fun i c' hc' => ?_, .inl rfl⟩
  · show ((k.chans.map Channel.save).mapIdx _).length = _
    rw [List.length_mapIdx, List.length_map, hlen]
  · rw [Saved.restore_save_getElem?] at hc'
    obtain ⟨c, hc, rfl⟩ := Option.map_eq_some_iff.1 hc'
    exact (hchans i c hc).restore

end RestoreController

/-- Settles O56: each channel is restored from what was saved of it, apart from its phase. -/
theorem saveRestoreKeepsTheController : Obligations.SaveRestoreKeepsTheController := by
  intro s hw hl t
  refine ⟨⟨hw.1, hw.2.restore hw.channelCount_le⟩, ⟨hl.1, rfl, rfl⟩, rfl, Saved.save_restore_save, fun i c hc => ?_⟩
  have hc' : t.ctrl.chans[i]? = some (c.save.restore s.cfg.layout s.draws s.ctrl.ssr i) :=
    (Saved.restore_save_getElem? i).trans (by rw [hc, Option.map_some])
  exact ⟨_, hc', rfl, rfl, SavedChannel.restore_save_remaining⟩

end Sys2Proof.Machine
end
